-- ==== Sys2Proof/Word.lean ====
section
/-! DEFINITION. The word type of the block and the byte a host may store words in. -/

namespace Sys2Proof

/-- A 32-bit vector, bit 0 the least significant (00_scope.md R10). Both ports carry one (10_state.md R16, R17).
`BitVec.toNat` is the spec's `uint`, `BitVec.toInt` its `sint`; `+`, `-`, `<<<`, `>>>` and `|||` are its
`+_32`, `-_32`, `<<_32`, `>>_32` and `|` (R11). -/
abbrev Word := BitVec 32

/-- Eight bits of a word that a host stores in a byte-addressed memory of its own. The block has no bytes
(20_memory.md R29). -/
abbrev Byte := BitVec 8

end Sys2Proof
end

