-- ==== Sys2Proof/Syntax.lean ====
section
/-! DEFINITION. The instructions of the block: one constructor, for the one row of spec/opcode_table.json. -/

namespace Sys2Proof

/-- The operations. The block has exactly one, `I2F_RTZ`, the source's `convert` (30_encoding.md R37); the whole
input word is its operand (R42). -/
inductive Instr where
  /-- `I2F_RTZ a`: the IEEE-754 single-precision pattern of `sint(a)` truncated toward zero (40_converter_top.md R47). -/
  | i2fRtz (a : Word)
deriving DecidableEq, Repr

end Sys2Proof
end

