-- ==== Sys2Proof/WellFormed.lean ====
section
/-! DEFINITION. Which instructions are well-formed: all of them. -/

namespace Sys2Proof

/-- "No input word is illegal, reserved, a hint or custom" (30_encoding.md R43): there is nothing to check. The one
check on what a person may write, that a decimal operand is in range (R46), stands with the one-line syntax in
Machine/Assembly.lean (`AsmOperand.wellFormed`). -/
def Instr.wellFormed : Instr → Bool
  | .i2fRtz _ => true

end Sys2Proof
end

