-- ==== Sys2Proof/Decode.lean ====
section
/-! DEFINITION. Decoding and encoding: the operand word, the opcode table's numbering of it, and the bytes a host
may keep it in. -/

namespace Sys2Proof

/-- The mask of the one row of spec/opcode_table.json: no bit selects the operation (30_encoding.md R37). -/
def opcodeMask : Word := 0x00000000#32

/-- The match value of that row (R37). -/
def opcodeMatch : Word := 0x00000000#32

/-- Whether a word matches the row of `I2F_RTZ`. -/
def matchesRow (w : Word) : Bool := w &&& opcodeMask == opcodeMatch

/-- "The decoder of this block is the constant function that answers `I2F_RTZ`" (R37); it never answers "invalid"
(R43). The operand is the whole word as it stands (R42). -/
def decode (w : Word) : Instr := .i2fRtz w

/-- The word of an instruction: its operand (R37, format `OPERAND32`). -/
def encode : Instr → Word
  | .i2fRtz a => a

/-- The word of `nbits` bits numbered as spec/opcode_table.json numbers them. There is one operand width, 32 bits, and
no longer form (R45). DESIGN CHOICE (log entry 13), since the spec speaks of no other count of bits: bits of the number
from `nbits` up are not read, those of the word are 0, and more than 32 bits are no word. The decoder and the placing
of an operand both take their word from here. -/
def tableWord (nbits w : Nat) : Option Word :=
  if nbits ≤ 32 then some (BitVec.ofNat 32 (w % 2 ^ nbits)) else none

/-- The instruction read from `nbits` bits numbered as spec/opcode_table.json numbers them; none for more than 32 bits
(`tableWord`, log entry 13). -/
def decodeTableWord (nbits w : Nat) : Option Instr := (tableWord nbits w).map decode

/-- The byte order of a host that keeps words in bytes. The block has none (20_memory.md R29); the host chooses. -/
inductive ByteOrder where
  /-- the byte with bits 7 to 0 comes first -/
  | little
  /-- the byte with bits 31 to 24 comes first -/
  | big
deriving DecidableEq, Repr

/-- Why bytes are no operand. -/
inductive DecodeError where
  /-- Fewer than four bytes: both ports are always transferred whole (20_memory.md R31, 30_encoding.md R45).
  Raised by `decodeBytes`; safe, since no instruction is made up from part of a word. -/
  | shortWord (present : Nat)
deriving DecidableEq, Repr

/-- The word of four bytes, in the order they are stored in. -/
def wordOfBytes (o : ByteOrder) (b0 b1 b2 b3 : Byte) : Word :=
  match o with
  | .little => b3 ++ b2 ++ b1 ++ b0
  | .big => b0 ++ b1 ++ b2 ++ b3

/-- The four bytes of a word, in the order they are stored in. -/
def bytesOfWord (o : ByteOrder) (w : Word) : List Byte :=
  match o with
  | .little => [w.extractLsb' 0 8, w.extractLsb' 8 8, w.extractLsb' 16 8, w.extractLsb' 24 8]
  | .big => [w.extractLsb' 24 8, w.extractLsb' 16 8, w.extractLsb' 8 8, w.extractLsb' 0 8]

/-- The instruction at the front of a host's bytes, with the bytes after it. Total; what is no whole word is
rejected by name. -/
def decodeBytes (o : ByteOrder) : List Byte → Except DecodeError (Instr × List Byte)
  | b0 :: b1 :: b2 :: b3 :: rest => .ok (decode (wordOfBytes o b0 b1 b2 b3), rest)
  | short => .error (.shortWord short.length)

/-- The bytes of an instruction. -/
def encodeBytes (o : ByteOrder) (i : Instr) : List Byte := bytesOfWord o (encode i)

end Sys2Proof
end

