-- ==== Sys2Proof/Config.lean ====
section
/-! DEFINITION. The fixed widths of the block (00_scope.md R8). There is nothing to configure and no free value:
"nothing is left to the implementation" (43_numeric_laws.md R92). The one open parameter, the propagation delay
`T_PD` (R9), is read by no rule, so it has no definition here (log entry 4). -/

namespace Sys2Proof.Config

/-- `IN_W`, the width of the input word (R8). -/
def inW : Nat := 32

/-- `OUT_W`, the width of the output word (R8). -/
def outW : Nat := 32

/-- `EXP_W`, the width of the exponent field (R8). -/
def expW : Nat := 8

/-- `FRAC_W`, the width of the mantissa field (R8). -/
def fracW : Nat := 23

end Sys2Proof.Config
end

