-- ==== Sys2Proof/Machine/Constants.lean ====
section
/-! DEFINITION. The named constants of 00_scope.md R8 and R13. -/

namespace Sys2Proof.Machine

/-- `I32_MIN`, the integer `-2^31` (R13). -/
def i32Min : Word := 0x80000000#32

/-- `I32_MAX`, the integer `2^31 - 1` (R13). -/
def i32Max : Word := 0x7FFFFFFF#32

/-- `POS_ZERO`, the result for the operand 0 (R13). -/
def posZero : Word := 0x00000000#32

/-- `SIGN_BIT`, the word with only bit 31 set (R13). -/
def signBitWord : Word := 0x80000000#32

/-- `BIAS`, the exponent bias (R13). -/
def bias : BitVec 8 := 127#8

/-- `EXP_BASE = BIAS + 31 - 1`, from which the exponent encoder subtracts the shift count (R13). -/
def expBase : BitVec 8 := bias + 31#8 - 1#8

/-- `DROP`, the right shift after normalisation (R8). -/
def drop : Nat := 8

end Sys2Proof.Machine
end

