-- ==== Sys2Proof/Machine/Operands.lean ====
section
/-! DEFINITION. The operand word as the top-level unit reads it: zero detect, sign, magnitude (40_converter_top.md). -/

namespace Sys2Proof.Machine

/-- `is_zero`: 1 exactly when the input word is all zeros (R48). -/
def isZero (a : Word) : Bool := a == 0x00000000#32

/-- `sign`: bit 31 of the input word (R49). -/
def signBit (a : Word) : Bool := a.getLsbD 31

/-- `m`: the magnitude, by negation modulo `2^32` (R50). `I32_MIN` gives `0x80000000` again, which read as unsigned
is its magnitude; the wraparound is part of the design (R51). -/
def magnitude (a : Word) : Word := if signBit a then 0x00000000#32 - a else a

end Sys2Proof.Machine
end

