-- ==== Sys2Proof/Machine/Ladder.lean ====
section
/-! DEFINITION. The leading-zero detector and the exponent encoder (41_lzd_exponent.md): five conditional left shifts,
the shift count, the exponent value. -/

namespace Sys2Proof.Machine

/-- A stage that shifts by `n` acts exactly when the top `n` bits of its input are all zero (R57). -/
def stageActs (n : Nat) (v : Word) : Bool := v.extractLsb' (32 - n) n == 0#n

/-- What a stage that shifts by `n` gives: its input shifted left by `n` if it acts, else its input (R56). -/
def stageOut (n : Nat) (v : Word) : Word := if stageActs n v then v <<< n else v

/-- `v5`, the ladder's input: the magnitude (R56). -/
def v5 (m : Word) : Word := m
/-- Stage 4 acts, shifting by 16 (R58). -/
def s4 (m : Word) : Bool := stageActs 16 (v5 m)
/-- The value after stage 4 (R58). -/
def v4 (m : Word) : Word := stageOut 16 (v5 m)
/-- Stage 3 acts, shifting by 8 (R59). -/
def s3 (m : Word) : Bool := stageActs 8 (v4 m)
/-- The value after stage 3 (R59). -/
def v3 (m : Word) : Word := stageOut 8 (v4 m)
/-- Stage 2 acts, shifting by 4 (R60). -/
def s2 (m : Word) : Bool := stageActs 4 (v3 m)
/-- The value after stage 2 (R60). -/
def v2 (m : Word) : Word := stageOut 4 (v3 m)
/-- Stage 1 acts, shifting by 2 (R61). -/
def s1 (m : Word) : Bool := stageActs 2 (v2 m)
/-- The value after stage 1 (R61). -/
def v1 (m : Word) : Word := stageOut 2 (v2 m)
/-- Stage 0 acts, shifting by 1 (R62). -/
def s0 (m : Word) : Bool := stageActs 1 (v1 m)
/-- The value after stage 0 (R62). -/
def v0 (m : Word) : Word := stageOut 1 (v1 m)

/-- `shift`, 5 bits: the stage decisions, most significant first (R63, 30_encoding.md R40). -/
def shiftCount (m : Word) : BitVec 5 :=
  BitVec.ofBool (s4 m) ++ BitVec.ofBool (s3 m) ++ BitVec.ofBool (s2 m) ++ BitVec.ofBool (s1 m) ++ BitVec.ofBool (s0 m)

/-- `exp`, 8 bits: `157 - shift`, one less than the exponent field of the result (R65, R66). -/
def expValue (shift : BitVec 5) : BitVec 8 := expBase - shift.setWidth 8

end Sys2Proof.Machine
end

