-- ==== Sys2Proof/Machine/Packer.lean ====
section
/-! DEFINITION. The mantissa normaliser and bit-packer (42_normalizer_packer.md). -/

namespace Sys2Proof.Machine

/-- `norm`: the magnitude shifted left until its highest set bit is bit 31 (R68). -/
def normWord (m : Word) : Word := v0 m

/-- `mant_word`: the normalised word shifted right by 8, logically (R69). The eight bits shifted out are dropped and
never looked at: this is the truncation (R70). -/
def mantWord (norm : Word) : Word := norm >>> drop

/-- `packed`: the exponent value shifted to bit 23 is ADDED to the aligned significand; its implicit leading 1 at
bit 23 is not masked and carries into the exponent field (R72, 90_conflicts.md C1 reading A). -/
def packedWord (mant : Word) (exp : BitVec 8) : Word := mant + exp.setWidth 32 <<< 23

/-- `signed_word`: bit 31 set when the operand is negative (R74). -/
def signedWord (packed : Word) (sign : Bool) : Word := packed ||| (BitVec.ofBool sign).setWidth 32 <<< 31

end Sys2Proof.Machine
end

