-- ==== Sys2Proof/Machine/Converter.lean ====
section
/-! DEFINITION. The whole data path of `I2F_RTZ` (40_converter_top.md R47): every wire of 10_state.md R19 as a function
of the operand, and the result. -/

namespace Sys2Proof.Machine

/-- The wires of the block (10_state.md R19) and the result they drive. -/
structure Signals where
  isZero : Bool
  sign : Bool
  m : Word
  v5 : Word
  s4 : Bool
  v4 : Word
  s3 : Bool
  v3 : Word
  s2 : Bool
  v2 : Word
  s1 : Bool
  v1 : Word
  s0 : Bool
  v0 : Word
  shift : BitVec 5
  exp : BitVec 8
  norm : Word
  mantWord : Word
  packed : Word
  signedWord : Word
  z : Word
deriving DecidableEq, Repr

/-- `z`: all zeros when the operand is zero, else the packed, signed word, in which step 7 changes no bit
(40_converter_top.md R52, R53). -/
def outputSelect (zero : Bool) (signed : Word) : Word := if zero then posZero else signed

/-- Every wire for the operand `a`, line by line as R47 writes them. For `a = 0` the wires other than `is_zero` and
`z` have the values 10_state.md R19 gives, and the output select discards them. -/
def signalsOf (a : Word) : Signals :=
  let m := magnitude a
  let shift := shiftCount m
  let exp := expValue shift
  let norm := normWord m
  let mant := mantWord norm
  let packed := packedWord mant exp
  let signed := signedWord packed (signBit a)
  { isZero := isZero a
    sign := signBit a
    m := m
    v5 := v5 m
    s4 := s4 m
    v4 := v4 m
    s3 := s3 m
    v3 := v3 m
    s2 := s2 m
    v2 := v2 m
    s1 := s1 m
    v1 := v1 m
    s0 := s0 m
    v0 := v0 m
    shift := shift
    exp := exp
    norm := norm
    mantWord := mant
    packed := packed
    signedWord := signed
    z := outputSelect (isZero a) signed }

/-- `I2F_RTZ(a)`: the result word for the operand word (40_converter_top.md R47, 70_reset_and_hazards.md R112). -/
def i2fRtz (a : Word) : Word := (signalsOf a).z

end Sys2Proof.Machine
end

