-- ==== Sys2Proof/Machine/State.lean ====
section
/-! DEFINITION. The state of the machine. The block itself stores nothing (10_state.md R15); what stands here is the
value on each of its two ports (R16, R17) and the host's run as 70_reset_and_hazards.md R112 defines it: the operands
still to be presented and the pairs observed so far. -/

namespace Sys2Proof.Machine

/-- The ports and the run. No register, program counter, flag, control register or memory: there is none
(10_state.md R20 to R25, 20_memory.md R28). The wires of R19 are functions of the operand (`signalsOf`), not state. -/
structure State where
  /-- The operands the host has still to present, the next one first (R112, R103). DESIGN CHOICE, log entry 1. -/
  operands : List Word
  /-- The word on the input port `a` (R16). -/
  a : Word
  /-- The settled word on the output port `z` (R17). -/
  z : Word
  /-- The observation of the run so far, oldest pair first: the list of pairs `(a, z)` (R112). -/
  observed : List (Word × Word)
deriving DecidableEq, Repr

/-- The faults of the machine: none. "The set of synchronous exceptions is empty" (60_exceptions.md R95); no
constructor, so that no step can answer a fault. -/
inductive Fault where
deriving DecidableEq, Repr

/-- The refusals of the machine. -/
inductive Refusal where
  /-- The host's interface asks for this name. Nothing raises it: the block's one operation has its meaning for every
  operand (30_encoding.md R43). It would be safe. -/
  | notModelled (mnemonic : String)
deriving DecidableEq, Repr

/-- The machine right after reset. The block has no reset and nothing to reset (10_state.md R26, 70_reset_and_hazards.md
R105); no host has presented or observed anything. The word on `a` is not stated by the spec: zero, DESIGN CHOICE
(log entry 2), and `z` is then its result (R17). -/
def State.reset : State where
  operands := []
  a := 0x00000000#32
  z := 0x00000000#32
  observed := []

end Sys2Proof.Machine
end

