-- ==== Sys2Proof/Machine/Ops.lean ====
section
/-! DEFINITION. The named operations on the state: what the host does at the two ports and what the block does between
them. There is no exception to take and none to return from (60_exceptions.md R95, R99, R100), no register and no
memory, hence no operation for any of these. -/

namespace Sys2Proof.Machine

/-- The host drives the word `w` on the input port (10_state.md R16, 60_exceptions.md R103). -/
def State.present (s : State) (w : Word) : State := { s with a := w }

/-- The output port settles to the function of the present value of `a` (10_state.md R17, 70_reset_and_hazards.md
R110). -/
def State.settle (s : State) : State := { s with z := i2fRtz s.a }

/-- The host reads both ports: the pair `(a, z)` joins the observation of the run (R112). -/
def State.observe (s : State) : State := { s with observed := s.observed ++ [(s.a, s.z)] }

/-- The host's next operand and the state without it; none when the host presents no further operand (R112). -/
def State.nextOperand (s : State) : Option (Word × State) :=
  match s.operands with
  | [] => none
  | w :: rest => some (w, { s with operands := rest })

/-- The host places an operand before all it has still to present. -/
def State.place (s : State) (w : Word) : State := { s with operands := w :: s.operands }

/-- The host places the operand of `nbits` bits numbered as spec/opcode_table.json numbers them. The spec knows only one
32-bit word on `a` (60_exceptions.md R103, 30_encoding.md R45): for more than 32 bits there is no operand and nothing is
placed. DESIGN CHOICE, log entry 13. -/
def State.placeTableWord (s : State) (nbits w : Nat) : State :=
  match tableWord nbits w with
  | some v => s.place v
  | none => s

/-- A step after the last operand: the run has ended, nothing is owed (R112, R103), `a` keeps its word and `z` goes on
being its result (10_state.md R17); nothing joins the observation. DESIGN CHOICE, log entry 3. -/
def State.hold (s : State) : State := s.settle

end Sys2Proof.Machine
end

