-- ==== Sys2Proof/Machine/I2fRtz.lean ====
section
/-! DEFINITION. The meaning of `I2F_RTZ`. -/

namespace Sys2Proof.Machine

/-- One evaluation (40_converter_top.md R47, 70_reset_and_hazards.md R112): the operand word stands on `a`, `z` settles
to its result, and the pair is observed. A next state for every operand and every state: no fault outcome and no
refusal (60_exceptions.md R95). -/
def execI2fRtz (a : Word) (s : State) : Host.Outcome State Fault Refusal :=
  .next (s.present a).settle.observe

end Sys2Proof.Machine
end

