-- ==== Sys2Proof/Machine/Step.lean ====
section
/-! DEFINITION. The step: one evaluation (70_reset_and_hazards.md R112). -/

namespace Sys2Proof.Machine

/-- One step: the host presents its next operand and the block evaluates it, by the decoder (30_encoding.md R37) and
`exec`. When the host presents no further operand the run has ended and the ports hold (log entry 3). -/
def step (s : State) : Host.Outcome State Fault Refusal :=
  match s.nextOperand with
  | some (w, rest) => exec (decode w) rest
  | none => .next s.hold

/-- The state whose next step evaluates the word `w` of `nbits` bits: the host presents that operand before any other.
There is no fetch and no program counter (10_state.md R21); log entry 8. More than 32 bits are no operand and leave the
state as it is: DESIGN CHOICE, log entry 13. -/
def State.withFetchWord (s : State) (nbits w : Nat) : State := s.placeTableWord nbits w

end Sys2Proof.Machine
end

