-- ==== Sys2Proof/Machine/Assembly.lean ====
section
/-! DEFINITION. The one-line syntax of 30_encoding.md R46: `I2F_RTZ <integer>`, the operand a signed decimal or `0x`
followed by 8 hex digits, and the result written after `->` as 8 hex digits. Lines are lists of characters. What R46
does not say of blanks, leading zeros and the case of hex digits is log entry 6. -/

namespace Sys2Proof.Machine

/-- The operand of a line, as it is written. -/
inductive AsmOperand where
  /-- a signed decimal -/
  | dec (n : Int)
  /-- `0x` and 8 hex digits -/
  | hex (w : Word)
deriving DecidableEq, Repr

/-- "A signed decimal outside `-2147483648` to `2147483647` is not a line of this assembly" (R46). -/
def AsmOperand.wellFormed : AsmOperand → Bool
  | .dec n => decide (-2147483648 ≤ n) && decide (n ≤ 2147483647)
  | .hex _ => true

/-- The instruction of an operand: "the encoding of a line is the 32-bit two's-complement word of the integer" (R46). -/
def assemble (o : AsmOperand) : Option Instr :=
  if o.wellFormed then
    match o with
    | .dec n => some (.i2fRtz (BitVec.ofInt 32 n))
    | .hex w => some (.i2fRtz w)
  else none

/-- The value of a decimal digit. -/
def decDigit (c : Char) : Option Nat :=
  if 48 ≤ c.toNat ∧ c.toNat ≤ 57 then some (c.toNat - 48) else none

/-- The value of a hex digit, of either case. -/
def hexDigit (c : Char) : Option Nat :=
  if 48 ≤ c.toNat ∧ c.toNat ≤ 57 then some (c.toNat - 48)
  else if 65 ≤ c.toNat ∧ c.toNat ≤ 70 then some (c.toNat - 55)
  else if 97 ≤ c.toNat ∧ c.toNat ≤ 102 then some (c.toNat - 87)
  else none

/-- The number that digits of base `b` write after the number `acc`; none if a character is no digit. -/
def readDigits (b : Nat) (digit : Char → Option Nat) : Nat → List Char → Option Nat
  | acc, [] => some acc
  | acc, c :: cs =>
    match digit c with
    | some d => readDigits b digit (acc * b + d) cs
    | none => none

/-- The unsigned decimal that one or more digits write. -/
def readDecimal : List Char → Option Nat
  | [] => none
  | cs => readDigits 10 decDigit 0 cs

/-- The operand that characters write. -/
def readOperand : List Char → Option AsmOperand
  | '0' :: 'x' :: hs =>
    if hs.length = 8 then (readDigits 16 hexDigit 0 hs).map (fun n => .hex (BitVec.ofNat 32 n)) else none
  | '-' :: ds => (readDecimal ds).map (fun n => .dec (-(n : Int)))
  | ds => (readDecimal ds).map (fun n => .dec n)

/-- What follows `p` in `cs`, when `cs` begins with `p`. -/
def afterPrefix : List Char → List Char → Option (List Char)
  | [], cs => some cs
  | _ :: _, [] => none
  | p :: ps, c :: cs => if p = c then afterPrefix ps cs else none

/-- The mnemonic and the blank after it. -/
def mnemonicChars : List Char := ['I', '2', 'F', '_', 'R', 'T', 'Z', ' ']

/-- The instruction that a line writes; none for what is not a line of this assembly. -/
def assembleLine (line : List Char) : Option Instr :=
  match afterPrefix mnemonicChars line with
  | some cs => (readOperand cs).bind assemble
  | none => none

/-- The digit of a number below 16, upper case. -/
def digitOf (d : Nat) : Char := if d < 10 then Char.ofNat (48 + d) else Char.ofNat (55 + d)

/-- The decimal digits of `n`, without leading zeros, at most `fuel` of them. -/
def decDigits : Nat → Nat → List Char
  | 0, _ => []
  | fuel + 1, n => if n < 10 then [digitOf n] else decDigits fuel (n / 10) ++ [digitOf (n % 10)]

/-- The lowest `k` hex digits of `n`, most significant first. -/
def hexDigits : Nat → Nat → List Char
  | 0, _ => []
  | k + 1, n => hexDigits k (n / 16) ++ [digitOf (n % 16)]

/-- A signed decimal of at most ten digits. -/
def writeDecimal (n : Int) : List Char :=
  if n < 0 then '-' :: decDigits 10 n.natAbs else decDigits 10 n.natAbs

/-- The line of an instruction, its operand as a signed decimal. -/
def writeLineDec : Instr → List Char
  | .i2fRtz a => mnemonicChars ++ writeDecimal a.toInt

/-- The line of an instruction, its operand as `0x` and 8 hex digits. -/
def writeLineHex : Instr → List Char
  | .i2fRtz a => mnemonicChars ++ '0' :: 'x' :: hexDigits 8 a.toNat

/-- The result as it is written after a line: `-> 0x` and 8 hex digits (R46). -/
def writeResult (z : Word) : List Char := ['-', '>', ' ', '0', 'x'] ++ hexDigits 8 z.toNat

end Sys2Proof.Machine
end

