-- ==== Sys2Proof/Machine/Flags.lean ====
section
/-! DEFINITION. Flags: the block has none, stored or as an output (10_state.md R22, 43_numeric_laws.md R88). What a test
bench can recompute about a conversion stands here; nothing in State holds it and no step reads it. -/

namespace Sys2Proof.Machine

/-- `norm[7:0]`, the bits the right shift drops (42_normalizer_packer.md R70). -/
def droppedBits (a : Word) : BitVec 8 := (normWord (magnitude a)).extractLsb' 0 8

/-- Whether the conversion of `a` is exact, by the test of 43_numeric_laws.md R85; the block does not report it. -/
def conversionExact (a : Word) : Bool := isZero a || droppedBits a == 0#8

end Sys2Proof.Machine
end

