-- ==== Sys2Proof/Machine/Replicate.lean ====
section
/-! DEFINITION. Several copies of the block (60_exceptions.md R104): a list of blocks, each with the ports and the run
of its own host. They share nothing, and a schedule says which copy is stepped next. -/

namespace Sys2Proof.Machine

/-- Steps the copy at position `n`, leaving the others as they are; there is nothing to step where there is no copy. -/
def stepCopy (n : Nat) (blocks : List State) : Host.Outcome (List State) Fault Refusal :=
  match blocks[n]? with
  | none => .next blocks
  | some s =>
    match step s with
    | .next t => .next (blocks.set n t)
    | .fault r => .fault r
    | .refused r => .refused r

/-- Steps the copies a schedule names, in its order. -/
def runSchedule : List Nat → List State → Host.Outcome (List State) Fault Refusal
  | [], blocks => .next blocks
  | n :: rest, blocks =>
    match stepCopy n blocks with
    | .next blocks' => runSchedule rest blocks'
    | .fault r => .fault r
    | .refused r => .refused r

end Sys2Proof.Machine
end

