-- ==== Sys2Proof/Machine/Format.lean ====
section
/-! DEFINITION. The result word's format `F32` (30_encoding.md R39, 43_numeric_laws.md R82): its three fields and the
class of a pattern. -/

namespace Sys2Proof.Machine

/-- `S`, bit 31 (R39). -/
def signField (z : Word) : Bool := z.getLsbD 31

/-- `E`, bits 30 to 23 (R39). -/
def expField (z : Word) : BitVec 8 := z.extractLsb' 23 8

/-- `F`, bits 22 to 0 (R39). -/
def fracField (z : Word) : BitVec 23 := z.extractLsb' 0 23

/-- The classes of single-precision patterns. The source defines the value of normal numbers and of the all-zero
pattern only; the names of the others are the spec's passage from general knowledge (93_implementation_defined.md G2),
which it uses to say what the block never gives. -/
inductive Fp32Class where
  | posZero
  | negZero
  | subnormal
  | normal
  | infinity
  | nan
deriving DecidableEq, Repr

/-- The class of a pattern (G2). -/
def classify (z : Word) : Fp32Class :=
  if (expField z).toNat = 0 then
    if (fracField z).toNat = 0 then (if signField z then .negZero else .posZero) else .subnormal
  else if (expField z).toNat = 255 then
    if (fracField z).toNat = 0 then .infinity else .nan
  else .normal

end Sys2Proof.Machine
end

