-- ==== Sys2Proof/Machine/Reference.lean ====
section
/-! DEFINITION. The mathematics the laws are stated with (00_scope.md R12): "mathematics over integers and rationals,
not hardware". The block does not compute by these definitions. -/

namespace Sys2Proof.Machine

/-- `clz(m)`: the zero bits above the highest set bit, `31 - floor(log2(uint(m)))`, for a nonzero `m` (R12). "`clz` of
zero is not defined and no rule asks for it": no statement uses its value there. -/
def clz (m : Word) : Nat := 31 - Nat.log2 m.toNat

/-- `sigbits(m) = 32 - clz(m)`, for a nonzero `m` (R12). -/
def sigbits (m : Word) : Nat := 32 - clz m

/-- The exponent of the last kept bit of a magnitude `n` of `2^24` or more: `floor(log2(n)) - 23` (R12's `k`). -/
def keptExponent (n : Nat) : Nat := Nat.log2 n - 23

/-- `trunc24(x)`: `x` with every bit of its magnitude below the top 24 significant bits cleared (R12). -/
def trunc24 (x : Int) : Int :=
  if x.natAbs < 2 ^ 24 then x
  else x.sign * (x.natAbs / 2 ^ keptExponent x.natAbs * 2 ^ keptExponent x.natAbs : Nat)

/-- `fp32_value(z)`: the value of a pattern (R12). The all-zero pattern is 0; a pattern with exponent field 1 to 254 is
`(-1)^S * 2^(E - 127) * (1 + F / 2^23)`; for every other pattern "the source gives no meaning": none. -/
def fp32Value (z : Word) : Option ℚ :=
  if z = 0x00000000#32 then some 0
  else if 1 ≤ (expField z).toNat ∧ (expField z).toNat ≤ 254 then
    some ((-1) ^ (signField z).toNat * 2 ^ (((expField z).toNat : ℤ) - 127) * (1 + (fracField z).toNat / 2 ^ 23))
  else none

/-- Whether a number is representable: it is the value of some pattern. -/
def Representable (q : ℚ) : Prop := ∃ z : Word, fp32Value z = some q

/-- The native conversion's value for an integer: round to nearest, ties to even (93_implementation_defined.md G3, the
spec's passage from general knowledge). It is NOT part of the block (00_scope.md R5); 43_numeric_laws.md R94 compares
with it. A magnitude below `2^24` is representable. Above, its neighbours are `q * 2^k` and `(q + 1) * 2^k` with `q`
of 24 bits; the nearer is taken, and half way the one whose significand is even. -/
def nativeRne (x : Int) : Int :=
  if x.natAbs < 2 ^ 24 then x
  else
    let k := keptExponent x.natAbs
    let q := x.natAbs / 2 ^ k
    let r := x.natAbs % 2 ^ k
    let up := decide (2 ^ k < 2 * r) || (decide (2 * r = 2 ^ k) && decide (q % 2 = 1))
    x.sign * ((if up then q + 1 else q) * 2 ^ k : Nat)

end Sys2Proof.Machine
end

