-- ==== Sys2Proof/Safety.lean ====
section
/-! DEFINITION. What a sound state is, in the terms the statements use: the ports and every observed pair tell the
truth about the operand. -/

namespace Sys2Proof

open Sys2Proof.Machine

/-- The result patterns the block produces (30_encoding.md R44): the all-zero word; exponent field 127 to 157 of either
sign with the low `150 - E` mantissa bits zero where `E` is 150 or less; and `0xCF000000`. -/
def InCodeSpace (z : Word) : Prop :=
  z = 0x00000000#32 ∨ z = 0xCF000000#32 ∨
    (127 ≤ (expField z).toNat ∧ (expField z).toNat ≤ 157 ∧ (fracField z).toNat % 2 ^ (150 - (expField z).toNat) = 0)

/-- A pair of words is truthful when the result stands for the operand truncated toward zero to 24 significant bits
(43_numeric_laws.md R84) and is one of the patterns of R44. -/
def Truthful (p : Word × Word) : Prop :=
  fp32Value p.2 = some (trunc24 p.1.toInt : ℚ) ∧ InCodeSpace p.2

/-- The machine's invariant: the ports hold a truthful pair (10_state.md R17) and so does everything observed. -/
structure Sound (s : State) : Prop where
  ports : Truthful (s.a, s.z)
  observed : ∀ p ∈ s.observed, Truthful p

end Sys2Proof
end

