-- ==== Sys2Proof/Certificates/Slice0/Obligations.lean ====
section
/-! DEFINITION. The statements about the model, from the numbered rules of spec/. -/

open Sys2Proof Sys2Proof.Machine

/-! ### The instruction: completion, frame, no stop -/

/-- 40_converter_top.md R47: for every operand and every state, `exec` answers a next state with the operand on the
input port and on the output port the `z` of the rule's pseudocode, line by line; the rule's example, wire by
wire; and its corner case, that 1 and -1 are the only nonzero operands with shift count 31. -/
def Obligations.ConversionCompletesWithTheDataPath : Prop :=
  (∀ (a : Word) (s : State),
    let zero : Bool := a == 0x00000000#32
    let sign : Bool := a.getLsbD 31
    let m : Word := if sign then 0x00000000#32 - a else a
    let w5 : Word := m
    let d4 : Bool := w5.extractLsb' 16 16 == 0x0000#16
    let w4 : Word := if d4 then w5 <<< 16 else w5
    let d3 : Bool := w4.extractLsb' 24 8 == 0x00#8
    let w3 : Word := if d3 then w4 <<< 8 else w4
    let d2 : Bool := w3.extractLsb' 28 4 == 0x0#4
    let w2 : Word := if d2 then w3 <<< 4 else w3
    let d1 : Bool := w2.extractLsb' 30 2 == 0#2
    let w1 : Word := if d1 then w2 <<< 2 else w2
    let d0 : Bool := w1.extractLsb' 31 1 == 0#1
    let w0 : Word := if d0 then w1 <<< 1 else w1
    let shift : Nat := 16 * d4.toNat + 8 * d3.toNat + 4 * d2.toNat + 2 * d1.toNat + d0.toNat
    let exp : BitVec 8 := BitVec.ofNat 8 (157 - shift)
    let mant : Word := w0 >>> 8
    let packed : Word := mant + exp.setWidth 32 <<< 23
    let signed : Word := packed ||| (BitVec.ofBool sign).setWidth 32 <<< 31
    let z : Word := if zero then 0x00000000#32 else signed
    ∃ t : State, exec (.i2fRtz a) s = .next t ∧ t.a = a ∧ t.z = z) ∧
  (let g := signalsOf 0x00000005#32
   g.isZero = false ∧ g.sign = false ∧ g.m = 0x00000005#32 ∧ g.s4 = true ∧ g.v4 = 0x00050000#32 ∧ g.s3 = true ∧
   g.v3 = 0x05000000#32 ∧ g.s2 = true ∧ g.v2 = 0x50000000#32 ∧ g.s1 = false ∧ g.v1 = 0x50000000#32 ∧ g.s0 = true ∧
   g.v0 = 0xA0000000#32 ∧ g.shift = 29#5 ∧ g.exp = 128#8 ∧ g.norm = 0xA0000000#32 ∧ g.mantWord = 0x00A00000#32 ∧
   g.packed = 0x40A00000#32 ∧ g.z = 0x40A00000#32 ∧ fp32Value g.z = some 5) ∧
  (∀ a : Word, a ≠ 0#32 → ((signalsOf a).shift = 31#5 ↔ a = 1#32 ∨ a = 0xFFFFFFFF#32))

/-- What an evaluation leaves unchanged: the operands still to be presented and every earlier observation, in place.
It writes the two ports and adds the one pair it observed. That the run stands in State is the model's choice (log
entry 1). -/
def Obligations.ConversionFrame : Prop :=
  ∀ (a : Word) (s : State), ∃ t : State, exec (.i2fRtz a) s = .next t ∧
    t.operands = s.operands ∧ t.a = a ∧ t.observed.length = s.observed.length + 1 ∧
    (∀ n, n < s.observed.length → t.observed[n]? = s.observed[n]?) ∧ t.observed.getLast? = some (a, t.z)

/-- 60_exceptions.md R95: no operand and no state makes the block fault or refuse; there is no cause code. -/
def Obligations.NoStepFaultsOrRefuses : Prop :=
  (∀ (i : Instr) (s : State), ∃ t : State, exec i s = .next t) ∧
  (∀ s : State, ∃ t : State, step s = .next t) ∧ IsEmpty Fault

/-! ### Decoding, encoding, the syntax -/

/-- 30_encoding.md R37 and R43: every word matches the one row, every word decodes to `I2F_RTZ` of that whole word,
there is no other instruction, and each word has exactly one result. -/
def Obligations.EveryWordIsALegalOperand : Prop :=
  opcodeMask = 0x00000000#32 ∧ opcodeMatch = 0x00000000#32 ∧
  (∀ i : Instr, ∃ a, i = .i2fRtz a) ∧
  ∀ w : Word, matchesRow w = true ∧ decode w = .i2fRtz w ∧ (decode w).wellFormed = true ∧
    decodeTableWord 32 w.toNat = some (.i2fRtz w) ∧
    ∃! z : Word, ∀ s : State, ∃ t : State, exec (decode w) s = .next t ∧ t.z = z

/-- Words written out bit by bit from the operand format of 30_encoding.md section 1, with operands of 95_test_vectors.md
T1, decode to the integers they stand for; more than 32 bits are no instruction (section 5; log entry 13). -/
def Obligations.WordsDecodeToTheirOperands : Prop :=
  decode 0b00000000000000000000000111110100#32 = .i2fRtz (BitVec.ofInt 32 500) ∧
  decode 0b11111111111111111111111000001100#32 = .i2fRtz (BitVec.ofInt 32 (-500)) ∧
  decode 0b10000000000000000000000000000000#32 = .i2fRtz (BitVec.ofInt 32 (-2147483648)) ∧
  decodeTableWord 32 0xFFFFFFFF = some (.i2fRtz (BitVec.ofInt 32 (-1))) ∧
  decodeTableWord 33 0xFFFFFFFF = none

/-- 20_memory.md section 2: a host that keeps operands in bytes may choose either byte order and loses no bit; fewer than four
bytes are no operand, since both ports are transferred whole. -/
def Obligations.EitherByteOrderKeepsEveryBit : Prop :=
  (∀ (o : ByteOrder) (i : Instr) (rest : List Byte),
    decodeBytes o (encodeBytes o i ++ rest) = .ok (i, rest)) ∧
  (∀ (o : ByteOrder) (b0 b1 b2 b3 : Byte) (rest : List Byte), ∃ i : Instr,
    decodeBytes o (b0 :: b1 :: b2 :: b3 :: rest) = .ok (i, rest) ∧ encodeBytes o i = [b0, b1, b2, b3]) ∧
  (∀ (o : ByteOrder) (bs : List Byte), bs.length < 4 → decodeBytes o bs = .error (.shortWord bs.length))

/-- 30_encoding.md section 6: writing any instruction as a line, in decimal or in hex, and reading the line back gives the
instruction (lexical corners: log entry 6). -/
def Obligations.WrittenLinesReadBack : Prop :=
  ∀ i : Instr, assembleLine (writeLineDec i) = some i ∧ assembleLine (writeLineHex i) = some i

/-- 30_encoding.md section 6: a decimal is an operand exactly when it is in range, and then its word has that value. -/
def Obligations.DecimalOperandsEncodeExactlyInRange : Prop :=
  ∀ n : Int, (∀ a : Word, assemble (.dec n) = some (.i2fRtz a) ↔
      (-2147483648 ≤ n ∧ n ≤ 2147483647 ∧ a.toInt = n)) ∧
    (n < -2147483648 ∨ 2147483647 < n → assemble (.dec n) = none)

/-! ### The step and the run -/

/-- The step presents the next operand and is `exec` of the decoded instruction, nothing added. -/
def Obligations.StepEvaluatesTheDecodedOperand : Prop :=
  ∀ (s : State) (w : Word) (rest : List Word),
    step { s with operands := w :: rest } = exec (decode w) { s with operands := rest }

/-- The model's choice (log entry 3): with no operand left the ports hold, `z` being the result of the held `a`, and
nothing is observed. -/
def Obligations.PortsHoldAfterTheLastOperand : Prop :=
  ∀ s : State, step { s with operands := [] } = .next { s with operands := [], z := i2fRtz s.a }

/-- The model's choices (log entries 8 and 13): bits placed for the next step are the instruction it evaluates, and bits
that are no instruction, being more than 32, place nothing. -/
def Obligations.PlacedWordIsTheNextEvaluation : Prop :=
  (∀ (s : State) (nbits w : Nat) (i : Instr), decodeTableWord nbits w = some i →
    step (s.withFetchWord nbits w) = exec i s) ∧
  (∀ (nbits w : Nat), decodeTableWord nbits w = none ↔ 32 < nbits) ∧
  ∀ (s : State) (nbits w : Nat), decodeTableWord nbits w = none → s.withFetchWord nbits w = s

/-- 10_state.md section 2: after every step, from every state, `z` is the function of the present value of `a`, and it
is its three fields one after the other (30_encoding.md section 1). For a step with no operand left this rests on the
model's choice (log entry 3). -/
def Obligations.OutputFollowsInputAfterEveryStep : Prop :=
  ∀ s : State, ∃ t : State, step s = .next t ∧ t.z = i2fRtz t.a ∧
    t.z = BitVec.ofBool (signField t.z) ++ expField t.z ++ fracField t.z

/-- 70_reset_and_hazards.md section 5: a run over any sequence of operands, from any state, is observed as the list of
pairs of each operand and its own result, in order; it ends with no operand left and the last operand on the port.
That the run stands in State is the model's choice (log entry 1). -/
def Obligations.RunObservesEveryPair : Prop :=
  ∀ s : State, ∃ t : State, Host.Core.run core s.operands.length s = .next t ∧ t.operands = [] ∧
    t.observed = s.observed ++ s.operands.map (fun a => (a, i2fRtz a)) ∧
    t.a = s.operands.getLast?.getD s.a

/-- 70_reset_and_hazards.md section 3: whatever was presented before, and from whatever state, the result for an operand
is its own (runs as log entry 1 holds them). -/
def Obligations.EarlierOperandsDoNotMatter : Prop :=
  ∀ (s : State) (before after : List Word) (a : Word), ∃ t : State,
    Host.Core.run core (before.length + 1) { s with operands := before ++ a :: after } = .next t ∧
    t.a = a ∧ t.z = i2fRtz a ∧ t.operands = after ∧ t.observed.getLast? = some (a, i2fRtz a)

/-- 43_numeric_laws.md R92: the result depends on the operand alone, and converting the same integer twice yields
identical patterns. -/
def Obligations.ResultDependsOnTheOperandAlone : Prop :=
  ∀ (a : Word) (s s' : State), ∃ t t' u : State,
    exec (.i2fRtz a) s = .next t ∧ exec (.i2fRtz a) s' = .next t' ∧ t'.z = t.z ∧
    exec (.i2fRtz a) t = .next u ∧ u.z = t.z

/-- 60_exceptions.md section 7: several copies are a product of independent machines. After any schedule each copy is where
its own steps alone would have brought it. -/
def Obligations.CopiesRunIndependently : Prop :=
  ∀ (schedule : List Nat) (blocks : List State), ∃ blocks' : List State,
    runSchedule schedule blocks = .next blocks' ∧ blocks'.length = blocks.length ∧
    ∀ (n : Nat) (s : State), blocks[n]? = some s → ∃ t : State,
      Host.Core.run core (schedule.count n) s = .next t ∧ blocks'[n]? = some t

/-- 60_exceptions.md section 7: "no schedule of their evaluations can change any result": the order of the same steps does
not matter. -/
def Obligations.ScheduleOrderDoesNotMatter : Prop :=
  ∀ (l₁ l₂ : List Nat) (blocks : List State), l₁.Perm l₂ → runSchedule l₁ blocks = runSchedule l₂ blocks

/-! ### Invariant and reset -/

/-- Every step keeps the ports and the observation truthful: each result stands for its operand truncated to 24
significant bits and is a pattern of the code space. -/
def Obligations.StepKeepsSound : Prop :=
  ∀ s : State, Sound s → ∃ t : State, step s = .next t ∧ Sound t

/-- The state after reset is sound. Its word on `a` is the model's choice (log entry 2). -/
def Obligations.ResetIsSound : Prop := Sound State.reset

/-- The reset state. There is nothing to reset (10_state.md R26); the word on `a` and the empty lists are the model's
choices (log entries 2 and 3), `z` is the result of `a`. -/
def Obligations.ResetLeavesNothingPresented : Prop :=
  State.reset.operands = [] ∧ State.reset.observed = [] ∧ State.reset.a = 0x00000000#32 ∧
    State.reset.z = i2fRtz State.reset.a

/-! ### The top-level unit -/

/-- 40_converter_top.md R48: zero detect is the NOR of the operand's bits, and testing the magnitude gives the same. -/
def Obligations.ZeroDetectIsNorOfTheOperand : Prop :=
  ∀ a : Word, (isZero a = true ↔ a = 0x00000000#32) ∧
    (isZero a = true ↔ ∀ i < 32, a.getLsbD i = false) ∧
    (isZero a = true ↔ magnitude a = 0x00000000#32)

/-- 30_encoding.md R38 and 40_converter_top.md R49: the operand's value, and the sign as bit 31, which is 1 exactly when
the integer is negative. -/
def Obligations.SignIsTheOperandsTopBit : Prop :=
  ∀ a : Word, signBit a = a.getLsbD 31 ∧ (signBit a = true ↔ a.toInt < 0) ∧
    a.toInt = (a.toNat % 2 ^ 31 : Nat) - 2 ^ 31 * ((signBit a).toNat : Int) ∧
    (a.toInt = 0 ↔ isZero a = true) ∧ i32Min.toInt = -2 ^ 31

/-- 40_converter_top.md R50 with the negation law of 43_numeric_laws.md R79: the magnitude is the absolute value of the
operand, `I32_MIN` included, however the negation is spelled, and is zero only for zero. -/
def Obligations.MagnitudeIsTheAbsoluteValue : Prop :=
  (∀ x : Word, ((0#32 - x).toNat = (2 ^ 32 - x.toNat) % 2 ^ 32) ∧ (0#32 - x = 0#32 ↔ x = 0#32) ∧
    (0#32 - x = x ↔ x = 0#32 ∨ x = i32Min) ∧ (x.toInt < 0 → ((0#32 - x).toNat : Int) = -x.toInt)) ∧
  ∀ a : Word, (magnitude a).toNat = a.toInt.natAbs ∧
    magnitude a = (if signBit a then 0#32 - a else a) ∧ magnitude a = (if signBit a then ~~~a + 1#32 else a) ∧
    (magnitude a).toNat ≤ 2 ^ 31 ∧ (magnitude a = 0#32 ↔ a = 0#32) ∧
    (signBit a = false → (magnitude a).getLsbD 31 = false)

/-- 40_converter_top.md R51: for `I32_MIN` the negation gives the operand back, an ordinary unsigned magnitude `2^31`,
and the result is `-2^31` exactly. -/
def Obligations.MinimumOperandWrapsAround : Prop :=
  (signalsOf i32Min).m = 0x80000000#32 ∧ (signalsOf i32Min).m.toNat = 2 ^ 31 ∧ (signalsOf i32Min).shift = 0#5 ∧
  (∀ s : State, ∃ t : State, exec (.i2fRtz i32Min) s = .next t ∧ t.z = 0xCF000000#32) ∧
  fp32Value 0xCF000000#32 = some (-2 ^ 31)

/-- 40_converter_top.md R52 and R54, 41_lzd_exponent.md R64: the select gives the all-zero word for zero and the packed,
signed word otherwise; for zero every stage acts, the wires have the values the rules give, and without the select the
result would be 0.5. -/
def Obligations.ZeroSelectIsNecessary : Prop :=
  (∀ a : Word, i2fRtz a = if a = 0x00000000#32 then 0x00000000#32 else (signalsOf a).signedWord) ∧
  (let g := signalsOf 0x00000000#32
   g.m = 0#32 ∧ g.s4 = true ∧ g.s3 = true ∧ g.s2 = true ∧ g.s1 = true ∧ g.s0 = true ∧
   g.v4 = 0#32 ∧ g.v3 = 0#32 ∧ g.v2 = 0#32 ∧ g.v1 = 0#32 ∧ g.v0 = 0#32 ∧ g.shift = 31#5 ∧ g.exp = 126#8 ∧
   g.norm = 0#32 ∧ g.mantWord = 0#32 ∧ g.packed = 0x3F000000#32 ∧ g.signedWord = 0x3F000000#32) ∧
  fp32Value 0x3F000000#32 = some (1 / 2)

/-! ### The ladder and the exponent encoder -/

/-- 41_lzd_exponent.md R57: a stage acts exactly when its top bits are zero, which is an unsigned comparison with its
threshold; and no other decisions normalise a nonzero magnitude without losing a bit. -/
def Obligations.LadderDecisionsAreForced : Prop :=
  (∀ n ∈ [16, 8, 4, 2, 1], ∀ v : Word,
    (stageActs n v = true ↔ ∀ i, 32 - n ≤ i → i < 32 → v.getLsbD i = false) ∧
    (stageActs n v = true ↔ v.toNat < 2 ^ (32 - n))) ∧
  ∀ (m : Word) (b4 b3 b2 b1 b0 : Bool),
    let w4 : Word := if b4 then m <<< 16 else m
    let w3 : Word := if b3 then w4 <<< 8 else w4
    let w2 : Word := if b2 then w3 <<< 4 else w3
    let w1 : Word := if b1 then w2 <<< 2 else w2
    let w0 : Word := if b0 then w1 <<< 1 else w1
    m ≠ 0#32 → w0.getLsbD 31 = true →
    w0.toNat = m.toNat * 2 ^ (16 * b4.toNat + 8 * b3.toNat + 4 * b2.toNat + 2 * b1.toNat + b0.toNat) →
    b4 = s4 m ∧ b3 = s3 m ∧ b2 = s2 m ∧ b1 = s1 m ∧ b0 = s0 m

/-- 41_lzd_exponent.md R58 to R62: each stage's decision and value; when it acts no set bit is lost; and for a nonzero
magnitude what holds after each stage, bit 31 being set at the end. -/
def Obligations.LadderStagesKeepTheirPostconditions : Prop :=
  ∀ m : Word,
    (s4 m = ((v5 m).extractLsb' 16 16 == 0x0000#16) ∧ v4 m = (if s4 m then v5 m <<< 16 else v5 m) ∧
      (s4 m = true → (v4 m).toNat = (v5 m).toNat * 2 ^ 16)) ∧
    (s3 m = ((v4 m).extractLsb' 24 8 == 0x00#8) ∧ v3 m = (if s3 m then v4 m <<< 8 else v4 m) ∧
      (s3 m = true → (v3 m).toNat = (v4 m).toNat * 2 ^ 8)) ∧
    (s2 m = ((v3 m).extractLsb' 28 4 == 0x0#4) ∧ v2 m = (if s2 m then v3 m <<< 4 else v3 m) ∧
      (s2 m = true → (v2 m).toNat = (v3 m).toNat * 2 ^ 4)) ∧
    (s1 m = ((v2 m).extractLsb' 30 2 == 0#2) ∧ v1 m = (if s1 m then v2 m <<< 2 else v2 m) ∧
      (s1 m = true → (v1 m).toNat = (v2 m).toNat * 2 ^ 2)) ∧
    (s0 m = ((v1 m).extractLsb' 31 1 == 0#1) ∧ v0 m = (if s0 m then v1 m <<< 1 else v1 m) ∧
      (s0 m = true → (v0 m).toNat = (v1 m).toNat * 2)) ∧
    (m ≠ 0#32 → 2 ^ 16 ≤ (v4 m).toNat ∧ 2 ^ 24 ≤ (v3 m).toNat ∧ 2 ^ 28 ≤ (v2 m).toNat ∧ 2 ^ 30 ≤ (v1 m).toNat ∧
      (v0 m).getLsbD 31 = true)

/-- 41_lzd_exponent.md R63 and 30_encoding.md R40: the shift count is the five decisions, the sum of the amounts and, for
a nonzero magnitude, `clz`; shifting by it loses no set bit; it is 0 for the operand `I32_MIN` alone. -/
def Obligations.ShiftCountIsLeadingZeros : Prop :=
  (∀ m : Word,
    (shiftCount m).getLsbD 4 = s4 m ∧ (shiftCount m).getLsbD 3 = s3 m ∧ (shiftCount m).getLsbD 2 = s2 m ∧
    (shiftCount m).getLsbD 1 = s1 m ∧ (shiftCount m).getLsbD 0 = s0 m ∧
    (shiftCount m).toNat =
      16 * (s4 m).toNat + 8 * (s3 m).toNat + 4 * (s2 m).toNat + 2 * (s1 m).toNat + (s0 m).toNat ∧
    (m ≠ 0#32 → (shiftCount m).toNat = clz m ∧ v0 m = m <<< (shiftCount m).toNat ∧
      (v0 m).toNat = m.toNat * 2 ^ (shiftCount m).toNat)) ∧
  ∀ a : Word, (shiftCount (magnitude a) = 0#5 ↔ a = i32Min)

/-- 41_lzd_exponent.md R65: the exponent value for every shift count, with its range and the shifted addend of the
rule's table. -/
def Obligations.ExponentValueForEveryShift : Prop :=
  ∀ shift : BitVec 5, (expValue shift).toNat = 157 - shift.toNat ∧
    126 ≤ (expValue shift).toNat ∧ (expValue shift).toNat ≤ 157 ∧
    ((expValue shift).setWidth 32 <<< 23 : Word).toNat = 0x4E800000 - 0x00800000 * shift.toNat

/-! ### The normaliser and packer -/

/-- 42_normalizer_packer.md R68: the normalised word has bit 31 set, is the magnitude times `2^shift`, ends in `shift`
zeros, and is `0x80000000` for every power of two. -/
def Obligations.NormalisedWordKeepsEveryBit : Prop :=
  (∀ m : Word, m ≠ 0#32 → (normWord m).getLsbD 31 = true ∧
    normWord m = m <<< (shiftCount m).toNat ∧
    (normWord m).toNat = m.toNat * 2 ^ (shiftCount m).toNat ∧
    (∀ i < (shiftCount m).toNat, (normWord m).getLsbD i = false)) ∧
  (∀ k < 32, normWord (BitVec.ofNat 32 (2 ^ k)) = 0x80000000#32) ∧ normWord 0#32 = 0#32

/-- 42_normalizer_packer.md R69: the aligned significand is the top 24 bits of the normalised word below eight zeros; for
a nonzero operand its bit 23, the implicit leading 1, is set, and its range is the rule's. -/
def Obligations.AlignedSignificandIsTheTopOfTheNormalisedWord : Prop :=
  (∀ n : Word, mantWord n = 0x00#8 ++ n.extractLsb' 8 24 ∧
    (∀ i, 24 ≤ i → i < 32 → (mantWord n).getLsbD i = false) ∧
    (mantWord n).getLsbD 23 = n.getLsbD 31 ∧ (mantWord n).extractLsb' 0 23 = n.extractLsb' 8 23) ∧
  ∀ a : Word, a ≠ 0#32 →
    normWord (magnitude a) ≤ 0xFFFFFFFE#32 ∧ (mantWord (normWord (magnitude a))).getLsbD 23 = true ∧
    0x00800000 ≤ (mantWord (normWord (magnitude a))).toNat ∧ (mantWord (normWord (magnitude a))).toNat ≤ 0x00FFFFFF

/-- 42_normalizer_packer.md section 2: the dropped bits are never looked at. Two nonzero operands of one sign and one shift
count whose normalised words agree above bit 7 have the same result. -/
def Obligations.DroppedBitsNeverMatter : Prop :=
  ∀ a b : Word, a ≠ 0#32 → b ≠ 0#32 → signBit a = signBit b →
    shiftCount (magnitude a) = shiftCount (magnitude b) →
    (normWord (magnitude a)).extractLsb' 8 24 = (normWord (magnitude b)).extractLsb' 8 24 →
    i2fRtz a = i2fRtz b

/-- 42_normalizer_packer.md R71: which bits of the magnitude are dropped, by shift count, and the weight of the last kept
bit. For a shift count below 8 the low `8 - shift` bits go, and the kept part is a multiple of `2^(8 - shift)`; from 8
on nothing goes. -/
def Obligations.DroppedBitsByShiftCount : Prop :=
  ∀ a : Word, a ≠ 0#32 →
    let m := magnitude a
    let s := (shiftCount m).toNat
    sigbits m = 32 - s ∧ (s = 0 → m.toNat = 2 ^ 31 ∧ droppedBits a = 0#8) ∧
    (s < 8 → (droppedBits a).toNat = m.toNat % 2 ^ (8 - s) * 2 ^ s ∧
      (mantWord (normWord m)).toNat * 2 ^ (8 - s) + m.toNat % 2 ^ (8 - s) = m.toNat) ∧
    (8 ≤ s → droppedBits a = 0#8 ∧ m.toNat < 2 ^ 24 ∧ (mantWord (normWord m)).toNat = m.toNat * 2 ^ (s - 8))

/-- 42_normalizer_packer.md R72, 41_lzd_exponent.md R66, 30_encoding.md R41: the merge is an addition in which the
implicit bit adds 1 to the exponent value and no bit of the mantissa field changes; and the two equivalent forms. -/
def Obligations.MergeAddsTheImplicitBitToTheExponent : Prop :=
  ∀ a : Word, a ≠ 0#32 →
    let g := signalsOf a
    g.packed = g.mantWord + g.exp.setWidth 32 <<< 23 ∧
    g.exp.toNat = 157 - g.shift.toNat ∧ 126 ≤ g.exp.toNat ∧ g.exp.toNat ≤ 157 ∧
    g.mantWord.extractLsb' 24 8 = 0#8 ∧ g.mantWord.getLsbD 23 = true ∧
    (expField g.packed).toNat = g.exp.toNat + 1 ∧ (expField g.packed).toNat = 158 - g.shift.toNat ∧
    127 ≤ (expField g.packed).toNat ∧ (expField g.packed).toNat ≤ 158 ∧
    fracField g.packed = g.mantWord.extractLsb' 0 23 ∧
    g.packed = 0#1 ++ BitVec.ofNat 8 (158 - g.shift.toNat) ++ g.norm.extractLsb' 8 23 ∧
    g.packed = (g.mantWord &&& ~~~0x00800000#32) ||| BitVec.ofNat 32 (158 - g.shift.toNat) <<< 23

/-- 42_normalizer_packer.md R73: the addition never wraps and never reaches bit 31; the packed word is the pattern of a
positive normal number, in the rule's range. -/
def Obligations.MergeNeverWraps : Prop :=
  ∀ a : Word, a ≠ 0#32 →
    let g := signalsOf a
    g.packed.toNat = g.mantWord.toNat + g.exp.toNat * 2 ^ 23 ∧
    0x3F800000 ≤ g.packed.toNat ∧ g.packed.toNat ≤ 0x4F000000 ∧ g.packed.getLsbD 31 = false ∧
    127 ≤ (expField g.packed).toNat ∧ (expField g.packed).toNat ≤ 158 ∧ classify g.packed = .normal ∧
    signField g.packed = false ∧ (g.exp = 157#8 → g.mantWord = 0x00800000#32)

/-- 42_normalizer_packer.md R74: the signed word is the sign bit above the packed word's other bits: the packed word itself
for sign 0, and with `SIGN_BIT` (00_scope.md R13) set for sign 1. -/
def Obligations.SignInsertionSetsOnlyTheTopBit : Prop :=
  ∀ a : Word, (signalsOf a).signedWord = BitVec.ofBool (signBit a) ++ (signalsOf a).packed.extractLsb' 0 31 ∧
    (signBit a = false → (signalsOf a).signedWord = (signalsOf a).packed) ∧
    (signBit a = true → (signalsOf a).signedWord = (signalsOf a).packed ||| signBitWord)

/-- 42_normalizer_packer.md R75, with 40_converter_top.md R55: the step-by-step form equals the form by fields with
`clz`, for every operand and from every state. -/
def Obligations.ResultByFieldsRefinesTheDataPath : Prop :=
  ∀ (a : Word) (s : State), ∃ t : State, exec (.i2fRtz a) s = .next t ∧
    (a = 0#32 → signField t.z = false ∧ expField t.z = 0#8 ∧ fracField t.z = 0#23) ∧
    (a ≠ 0#32 → signField t.z = a.getLsbD 31 ∧
      (expField t.z).toNat = 158 - (shiftCount (magnitude a)).toNat ∧
      (expField t.z).toNat = 127 + (31 - clz (magnitude a)) ∧
      127 ≤ (expField t.z).toNat ∧ (expField t.z).toNat ≤ 158 ∧
      fracField t.z = (normWord (magnitude a)).extractLsb' 8 23 ∧
      fracField t.z = (magnitude a <<< clz (magnitude a)).extractLsb' 8 23)

/-- 42_normalizer_packer.md R76: operands with the same number of significant bits have the same exponent field, which
is 126 more than that number and rises by exactly one at each power of two. -/
def Obligations.ExponentFieldStepsAtPowersOfTwo : Prop :=
  (∀ a : Word, a ≠ 0#32 → (expField (i2fRtz a)).toNat = 126 + sigbits (magnitude a)) ∧
  (∀ a b : Word, 0 < a.toInt → a.toInt < b.toInt → sigbits a = sigbits b →
    expField (i2fRtz a) = expField (i2fRtz b)) ∧
  (∀ k, 1 ≤ k → k ≤ 30 →
    (expField (i2fRtz (BitVec.ofNat 32 (2 ^ k - 1)))).toNat = 126 + k ∧
    (expField (i2fRtz (BitVec.ofNat 32 (2 ^ k)))).toNat = 127 + k)

/-! ### The numeric laws -/

/-- 43_numeric_laws.md R84: the value law. The result is the operand truncated toward zero to 24 significant bits; no
representable number of magnitude up to the operand's lies further out; the loss is at most 127, is the dropped bits of
the magnitude, and is 127 exactly for shift count 1 with the low seven bits of the magnitude set. -/
def Obligations.ResultIsTheOperandTruncated : Prop :=
  ∀ a : Word,
    let m := magnitude a
    let s := (shiftCount m).toNat
    let loss := a.toInt.natAbs - (trunc24 a.toInt).natAbs
    fp32Value (i2fRtz a) = some (trunc24 a.toInt : ℚ) ∧
    (∀ q : ℚ, Representable q → |q| ≤ |(a.toInt : ℚ)| → |q| ≤ |(trunc24 a.toInt : ℚ)|) ∧
    0 ≤ trunc24 a.toInt * a.toInt ∧
    (trunc24 a.toInt).natAbs ≤ a.toInt.natAbs ∧ loss ≤ 127 ∧
    (s < 8 → loss = m.toNat % 2 ^ (8 - s) ∧ loss < 2 ^ (8 - s)) ∧
    (loss = 127 ↔ s = 1 ∧ m.toNat % 2 ^ 7 = 0x7F) ∧
    (loss = 127 → 0 < a.toInt → 0x4000007F ≤ a.toNat ∧ a.toNat ≤ i32Max.toNat) ∧
    (a = 0x4000007F#32 ∨ a = i32Max → loss = 127)

/-- 43_numeric_laws.md section 2, exactness: the conversion is exact exactly for zero and where the dropped bits are all
zero; so below and at magnitude `2^24`, and for every magnitude whose set bits span at most 24 positions. Up to `2^24`
the native conversion is exact too; it is not part of the block, and its definition is the model's from
93_implementation_defined.md section 2, G3 (PRESUMED, log entry 11). -/
def Obligations.ExactExactlyWhenNothingIsDropped : Prop :=
  (∀ a : Word, fp32Value (i2fRtz a) = some (a.toInt : ℚ) ↔ (a = 0#32 ∨ droppedBits a = 0x00#8)) ∧
  (∀ a : Word, a.toInt.natAbs ≤ 2 ^ 24 → fp32Value (i2fRtz a) = some (a.toInt : ℚ) ∧ nativeRne a.toInt = a.toInt) ∧
  (∀ (a : Word) (j : Nat), (magnitude a).toNat < 2 ^ (j + 24) → 2 ^ j ∣ (magnitude a).toNat →
    fp32Value (i2fRtz a) = some (a.toInt : ℚ))

/-- 43_numeric_laws.md section 2: exactly 150994944 of the `2^32` operands are converted exactly. -/
def Obligations.ExactOperandsNumber150994944 : Prop :=
  Nat.card { a : Word // fp32Value (i2fRtz a) = some (a.toInt : ℚ) } = 150994944

/-- 43_numeric_laws.md R86: zero alone gives the all-zero pattern, and nothing gives negative zero. -/
def Obligations.OnlyZeroGivesZero : Prop :=
  i2fRtz 0x00000000#32 = 0x00000000#32 ∧
  ∀ a : Word, (i2fRtz a = 0x00000000#32 → a = 0x00000000#32) ∧ i2fRtz a ≠ 0x80000000#32

/-- 30_encoding.md R44: the result patterns by operand, and what is never produced. -/
def Obligations.ResultsLieInTheCodeSpace : Prop :=
  ∀ a : Word,
    (i2fRtz a = 0x00000000#32 ↔ a = 0#32) ∧
    (1 ≤ a.toInt → 0x3F800000 ≤ (i2fRtz a).toNat ∧ (i2fRtz a).toNat ≤ 0x4EFFFFFF) ∧
    (-(2 ^ 31 - 1) ≤ a.toInt → a.toInt ≤ -1 → 0xBF800000 ≤ (i2fRtz a).toNat ∧ (i2fRtz a).toNat ≤ 0xCEFFFFFF) ∧
    (i2fRtz a = 0xCF000000#32 ↔ a = i32Min) ∧
    (127 ≤ (expField (i2fRtz a)).toNat → (expField (i2fRtz a)).toNat ≤ 150 →
      (fracField (i2fRtz a)).toNat % 2 ^ (150 - (expField (i2fRtz a)).toNat) = 0) ∧
    (classify (i2fRtz a) = .posZero ∨ classify (i2fRtz a) = .normal) ∧ i2fRtz a ≠ 0x4F000000#32

/-- The code space of 30_encoding.md section 4 is hit whole: every pattern it leaves possible is the result of some
operand. Not said by the spec; it follows from the model. -/
def Obligations.EveryCodeSpacePatternIsProduced : Prop :=
  ∀ z : Word, InCodeSpace z ↔ ∃ a : Word, i2fRtz a = z

/-- 43_numeric_laws.md R87: every result is zero or a normal number with exponent field 127 to 158, of magnitude from 1
to `2^31`; so no subnormal, infinity or NaN. -/
def Obligations.ResultsAreZeroOrNormal : Prop :=
  ∀ a : Word, (a = 0#32 → i2fRtz a = 0#32) ∧
    (a ≠ 0#32 → classify (i2fRtz a) = .normal ∧
      127 ≤ (expField (i2fRtz a)).toNat ∧ (expField (i2fRtz a)).toNat ≤ 158 ∧
      ∃ q : ℚ, fp32Value (i2fRtz a) = some q ∧ 1 ≤ |q| ∧ |q| ≤ 2 ^ 31)

/-- 43_numeric_laws.md R89: bit 31 of the result is bit 31 of the operand, which is 1 exactly when it is negative. -/
def Obligations.ResultSignIsOperandSign : Prop :=
  ∀ (a : Word) (s : State), ∃ t : State, exec (.i2fRtz a) s = .next t ∧ t.z.getLsbD 31 = a.getLsbD 31 ∧
    (t.z.getLsbD 31 = true ↔ a.toInt < 0)

/-- 43_numeric_laws.md R90: the result for the negated operand is the result with bit 31 inverted, but for 0 and
`I32_MIN`, which are their own negations; the other wires are the same. -/
def Obligations.NegationFlipsOnlyTheSign : Prop :=
  (∀ a : Word, a ≠ 0#32 → a ≠ i32Min →
    i2fRtz (0#32 - a) = i2fRtz a ^^^ 0x80000000#32 ∧ signBit (0#32 - a) = !signBit a ∧
    (signalsOf (0#32 - a)).m = (signalsOf a).m ∧ (signalsOf (0#32 - a)).shift = (signalsOf a).shift ∧
    (signalsOf (0#32 - a)).norm = (signalsOf a).norm ∧ (signalsOf (0#32 - a)).exp = (signalsOf a).exp ∧
    (signalsOf (0#32 - a)).packed = (signalsOf a).packed) ∧
  0#32 - 0#32 = 0#32 ∧ i2fRtz 0#32 = 0x00000000#32 ∧ 0#32 - i32Min = i32Min ∧ i2fRtz i32Min = 0xCF000000#32

/-- 43_numeric_laws.md section 3: the extreme operands, wire by wire, and the values of their results; and the
native conversion's value for `I32_MAX`, `2^31`, which the block never gives. The native conversion is not part of the
block, and its definition is the model's from 93_implementation_defined.md section 2, G3 (PRESUMED, log entry 11). -/
def Obligations.ExtremeOperands : Prop :=
  (let g := signalsOf i32Min
   g.sign = true ∧ g.m = 0x80000000#32 ∧ g.shift = 0#5 ∧ g.exp = 157#8 ∧ g.norm = 0x80000000#32 ∧
   g.mantWord = 0x00800000#32 ∧ g.packed = 0x4F000000#32 ∧ g.z = 0xCF000000#32) ∧
  fp32Value 0xCF000000#32 = some (-2147483648) ∧
  (let g := signalsOf i32Max
   g.sign = false ∧ g.m = 0x7FFFFFFF#32 ∧ g.shift = 1#5 ∧ g.exp = 156#8 ∧ g.norm = 0xFFFFFFFE#32 ∧
   g.mantWord = 0x00FFFFFF#32 ∧ g.packed = 0x4EFFFFFF#32 ∧ g.z = 0x4EFFFFFF#32) ∧
  fp32Value 0x4EFFFFFF#32 = some 2147483520 ∧ nativeRne i32Max.toInt = 2 ^ 31 ∧
  fp32Value 0x4F000000#32 = some (2 ^ 31) ∧
  i2fRtz 0x80000001#32 = 0xCEFFFFFF#32 ∧ fp32Value 0xCEFFFFFF#32 = some (-2147483520) ∧
  i2fRtz 1#32 = 0x3F800000#32 ∧ i2fRtz 0xFFFFFFFF#32 = 0xBF800000#32

/-- 43_numeric_laws.md R93: the conversion is monotone in value; the patterns do not decrease over the non-negative
operands and do not increase over the negative ones. -/
def Obligations.ConversionIsMonotone : Prop :=
  ∀ a b : Word, a.toInt ≤ b.toInt →
    (∃ p q : ℚ, fp32Value (i2fRtz a) = some p ∧ fp32Value (i2fRtz b) = some q ∧ p ≤ q) ∧
    (0 ≤ a.toInt → (i2fRtz a).toNat ≤ (i2fRtz b).toNat) ∧
    (b.toInt < 0 → (i2fRtz b).toNat ≤ (i2fRtz a).toNat)

/-- 43_numeric_laws.md section 3, the native conversion (which is not part of the block): the two agree below `2^24`,
agree at `2^24 + 1`, differ at `2^24 + 3` and at no smaller positive operand; where they differ the native pattern is
the block's plus 1. -/
def Obligations.NativeConversionDivergesByOnePattern : Prop :=
  (∀ a : Word, a.toInt.natAbs < 2 ^ 24 → fp32Value (i2fRtz a) = some (nativeRne a.toInt : ℚ)) ∧
  i2fRtz 0x01000001#32 = 0x4B800000#32 ∧ nativeRne 16777217 = 16777216 ∧
  fp32Value 0x4B800000#32 = some 16777216 ∧
  i2fRtz 0x01000003#32 = 0x4B800001#32 ∧ nativeRne 16777219 = 16777220 ∧
  fp32Value 0x4B800001#32 = some 16777218 ∧ fp32Value 0x4B800002#32 = some 16777220 ∧
  (∀ a : Word, 0 < a.toInt → a.toInt < 16777219 → fp32Value (i2fRtz a) = some (nativeRne a.toInt : ℚ)) ∧
  (∀ a : Word, fp32Value (i2fRtz a) ≠ some (nativeRne a.toInt : ℚ) →
    2 ^ 24 ≤ a.toInt.natAbs ∧ fp32Value (i2fRtz a + 1#32) = some (nativeRne a.toInt : ℚ) ∧
    fp32Value (i2fRtz a) ≠ some (a.toInt : ℚ))
end

