-- ==== Sys2Proof/Laws/Ladder.lean ====
section
/-! SUPPORT. What a ladder stage does, in numbers. -/

namespace Sys2Proof.Machine

/-- A stage acts exactly when its input is below its threshold (41_lzd_exponent.md R57's comparison). -/
theorem stageActs_iff_lt (n : Nat) (hn : n ≤ 32) (v : Word) : stageActs n v = true ↔ v.toNat < 2 ^ (32 - n) := by
  have hv : v.toNat / 2 ^ (32 - n) < 2 ^ n := by
    rw [Nat.div_lt_iff_lt_mul (by positivity), ← pow_add, Nat.add_sub_cancel' hn]
    exact v.isLt
  rw [stageActs, beq_iff_eq, ← BitVec.toNat_inj, BitVec.extractLsb'_toNat, Nat.shiftRight_eq_div_pow,
    Nat.mod_eq_of_lt hv, BitVec.toNat_ofNat, Nat.zero_mod, Nat.div_eq_zero_iff]
  have : (2 : Nat) ^ (32 - n) ≠ 0 := by positivity
  tauto

/-- All a stage can give: its input times `2^n` when that is below its threshold, else its input. No set bit is lost. -/
theorem stageOut_toNat (n : Nat) (hn : n ≤ 32) (v : Word) :
    (stageOut n v).toNat = if v.toNat < 2 ^ (32 - n) then v.toNat * 2 ^ n else v.toNat := by
  unfold stageOut
  by_cases h : v.toNat < 2 ^ (32 - n)
  · have hlt : v.toNat * 2 ^ n < 2 ^ 32 := by
      calc v.toNat * 2 ^ n < 2 ^ (32 - n) * 2 ^ n := by gcongr
        _ = 2 ^ 32 := by rw [← pow_add, Nat.sub_add_cancel hn]
    rw [if_pos ((stageActs_iff_lt n hn v).2 h), if_pos h, BitVec.toNat_shiftLeft, Nat.shiftLeft_eq,
      Nat.mod_eq_of_lt hlt]
  · rw [if_neg (fun h' => h ((stageActs_iff_lt n hn v).1 h')), if_neg h]

/-- The shift count as a number (30_encoding.md R40). -/
theorem shiftCount_toNat (m : Word) :
    (shiftCount m).toNat =
      16 * (s4 m).toNat + 8 * (s3 m).toNat + 4 * (s2 m).toNat + 2 * (s1 m).toNat + (s0 m).toNat := by
  unfold shiftCount
  cases s4 m <;> cases s3 m <;> cases s2 m <;> cases s1 m <;> cases s0 m <;> rfl

end Sys2Proof.Machine
end

