-- ==== Sys2Proof/Laws/Packer.lean ====
section
/-! SUPPORT. What the packer's operations do, in numbers, and the result as their composition. -/

namespace Sys2Proof.Machine

/-- The right shift by 8 as a division (42_normalizer_packer.md R69). -/
theorem mantWord_toNat (norm : Word) : (mantWord norm).toNat = norm.toNat / 2 ^ 8 := by
  simp [mantWord, drop, Nat.shiftRight_eq_div_pow]

/-- The exponent value as a number; the subtraction never borrows (41_lzd_exponent.md R65). -/
theorem expValue_toNat_add (shift : BitVec 5) : (expValue shift).toNat + shift.toNat = 157 := by
  revert shift; decide

/-- The merge as an addition of numbers (42_normalizer_packer.md R72). -/
theorem packedWord_toNat (mant : Word) (exp : BitVec 8) :
    (packedWord mant exp).toNat = (mant.toNat + exp.toNat * 2 ^ 23) % 2 ^ 32 := by
  have := exp.isLt
  simp only [packedWord, BitVec.toNat_add, BitVec.toNat_shiftLeft, BitVec.toNat_setWidth, Nat.shiftLeft_eq]
  omega

/-- Sign 0 leaves the packed word as it is (42_normalizer_packer.md R74). -/
@[simp] theorem signedWord_false (packed : Word) : signedWord packed false = packed := by simp [signedWord]

/-- Sign 1 is an OR with `SIGN_BIT` (42_normalizer_packer.md R74, 00_scope.md R13). -/
@[simp] theorem signedWord_true (packed : Word) : signedWord packed true = packed ||| signBitWord := by
  have h : (BitVec.ofBool true).setWidth 32 <<< 31 = signBitWord := by decide
  rw [signedWord, h]

/-- Inserting the sign adds its weight where bit 31 is clear (42_normalizer_packer.md R74). -/
theorem signedWord_toNat (packed : Word) (sign : Bool) (h : packed.toNat < 2 ^ 31) :
    (signedWord packed sign).toNat = packed.toNat + sign.toNat * 2 ^ 31 := by
  cases sign
  · simp
  · have hor : packed.toNat ||| 2 ^ 31 = 2 ^ 31 + packed.toNat := by
      rw [Nat.or_comm]; simpa using (Nat.two_pow_add_eq_or_of_lt h 1).symm
    have h1 : signBitWord.toNat = 2 ^ 31 := by decide
    rw [signedWord_true, BitVec.toNat_or, h1, hor]
    simp [Nat.add_comm]

/-- The result as the composition of the units (40_converter_top.md R55). -/
theorem i2fRtz_eq (a : Word) :
    i2fRtz a = outputSelect (isZero a)
      (signedWord (packedWord (mantWord (normWord (magnitude a))) (expValue (shiftCount (magnitude a)))) (signBit a)) :=
  rfl

end Sys2Proof.Machine
end

