-- ==== Sys2Proof/Laws/PerInstr.lean ====
section
/-! SUPPORT. Facts about every instruction, one lemma per constructor. -/

/-- An instruction is well-formed and its word decodes to it (30_encoding.md R37, R43). -/
def Sys2Proof.Laws.WordRoundTrip.Statement (i : Sys2Proof.Instr) : Prop :=
  i.wellFormed = true ∧ Sys2Proof.matchesRow (Sys2Proof.encode i) = true ∧ Sys2Proof.decode (Sys2Proof.encode i) = i

theorem Sys2Proof.Laws.WordRoundTrip.i2fRtz (a : Sys2Proof.Word) :
    Sys2Proof.Laws.WordRoundTrip.Statement (.i2fRtz a) := by
  refine ⟨rfl, ?_, rfl⟩
  simp [Sys2Proof.matchesRow, Sys2Proof.opcodeMask, Sys2Proof.opcodeMatch]
end

