-- ==== Sys2Proof/Laws/Reference.lean ====
section
/-! SUPPORT. The value of a pattern, case by case (00_scope.md R12). -/

namespace Sys2Proof.Machine

/-- The all-zero pattern stands for 0. -/
@[simp] theorem fp32Value_zero : fp32Value 0x00000000#32 = some 0 := by simp [fp32Value]

/-- A pattern with exponent field 1 to 254 stands for the number its fields give. -/
theorem fp32Value_of_fields (z : Word) (sign : Bool) (e f : Nat) (hs : signField z = sign) (he : (expField z).toNat = e)
    (hf : (fracField z).toNat = f) (h1 : 1 ≤ e) (h2 : e ≤ 254) :
    fp32Value z = some ((-1 : ℚ) ^ sign.toNat * 2 ^ ((e : ℤ) - 127) * (1 + (f : ℚ) / 2 ^ 23)) := by
  have hne : z ≠ 0x00000000#32 := by
    rintro rfl
    have : (expField 0x00000000#32).toNat = 0 := by decide
    omega
  rw [fp32Value, if_neg hne, hs, he, hf, if_pos ⟨h1, h2⟩]

/-- The fields as divisions of the pattern (30_encoding.md R39). -/
theorem expField_toNat (z : Word) : (expField z).toNat = z.toNat / 2 ^ 23 % 2 ^ 8 := by
  simp [expField, BitVec.extractLsb'_toNat, Nat.shiftRight_eq_div_pow]

theorem fracField_toNat (z : Word) : (fracField z).toNat = z.toNat % 2 ^ 23 := by
  simp [fracField, BitVec.extractLsb'_toNat]

theorem signField_iff (z : Word) : signField z = true ↔ 2 ^ 31 ≤ z.toNat := by
  rw [signField, ← BitVec.msb_eq_getLsbD_last (w := 32) z, BitVec.msb_eq_decide, decide_eq_true_eq]

end Sys2Proof.Machine
end

