-- ==== Sys2Proof/Laws/State.lean ====
section
/-! SUPPORT. What each operation on the state does to each field, and what each field is at reset. -/

namespace Sys2Proof.Machine

variable (s : State) (w : Word)

@[simp] theorem State.present_operands : (s.present w).operands = s.operands := rfl
@[simp] theorem State.present_a : (s.present w).a = w := rfl
@[simp] theorem State.present_z : (s.present w).z = s.z := rfl
@[simp] theorem State.present_observed : (s.present w).observed = s.observed := rfl

@[simp] theorem State.settle_operands : s.settle.operands = s.operands := rfl
@[simp] theorem State.settle_a : s.settle.a = s.a := rfl
@[simp] theorem State.settle_z : s.settle.z = i2fRtz s.a := rfl
@[simp] theorem State.settle_observed : s.settle.observed = s.observed := rfl

@[simp] theorem State.observe_operands : s.observe.operands = s.operands := rfl
@[simp] theorem State.observe_a : s.observe.a = s.a := rfl
@[simp] theorem State.observe_z : s.observe.z = s.z := rfl
@[simp] theorem State.observe_observed : s.observe.observed = s.observed ++ [(s.a, s.z)] := rfl

@[simp] theorem State.hold_operands : s.hold.operands = s.operands := rfl
@[simp] theorem State.hold_a : s.hold.a = s.a := rfl
@[simp] theorem State.hold_z : s.hold.z = i2fRtz s.a := rfl
@[simp] theorem State.hold_observed : s.hold.observed = s.observed := rfl

@[simp] theorem State.place_operands : (s.place w).operands = w :: s.operands := rfl
@[simp] theorem State.place_a : (s.place w).a = s.a := rfl
@[simp] theorem State.place_z : (s.place w).z = s.z := rfl
@[simp] theorem State.place_observed : (s.place w).observed = s.observed := rfl

@[simp] theorem State.reset_operands : State.reset.operands = [] := rfl
@[simp] theorem State.reset_a : State.reset.a = 0x00000000#32 := rfl
@[simp] theorem State.reset_z : State.reset.z = 0x00000000#32 := rfl
@[simp] theorem State.reset_observed : State.reset.observed = [] := rfl

/-- All that taking the next operand can answer. -/
theorem State.nextOperand_cases :
    (s.operands = [] ∧ s.nextOperand = none) ∨
      ∃ v rest, s.operands = v :: rest ∧ s.nextOperand = some (v, { s with operands := rest }) := by
  unfold State.nextOperand
  cases h : s.operands with
  | nil => exact .inl ⟨rfl, rfl⟩
  | cons v rest => exact .inr ⟨v, rest, rfl, rfl⟩

/-- Placing an operand and taking the next one gives it back with the state unchanged. -/
@[simp] theorem State.nextOperand_place : (s.place w).nextOperand = some (w, s) := rfl

/-- Placing up to 32 bits is placing their word. -/
theorem State.placeTableWord_of_le (nbits n : Nat) (h : nbits ≤ 32) :
    s.placeTableWord nbits n = s.place (BitVec.ofNat 32 (n % 2 ^ nbits)) := by
  rw [State.placeTableWord, tableWord, if_pos h]

/-- Placing more than 32 bits places nothing (log entry 13). -/
theorem State.placeTableWord_of_gt (nbits n : Nat) (h : 32 < nbits) : s.placeTableWord nbits n = s := by
  rw [State.placeTableWord, tableWord, if_neg (by omega)]

/-- The three operations of an evaluation together. -/
theorem State.evaluate_eq (a : Word) :
    (s.present a).settle.observe =
      { operands := s.operands, a := a, z := i2fRtz a, observed := s.observed ++ [(a, i2fRtz a)] } := rfl

end Sys2Proof.Machine
end

