-- ==== Sys2Proof/Tests/Slice0.lean ====
section
/-! SUPPORT. Tests with results from 95_test_vectors.md, and for every statement with hypotheses a witness that they
can be met, at the boundary values of each clause. -/

namespace Sys2Proof.Tests

open Sys2Proof Sys2Proof.Machine

/-! ### Well-formedness and the syntax -/

/-- The one check on what may be written (R46) refuses the decimals on either side of the range; R43 leaves no word to
refuse. -/
theorem test_smoke_out_of_range_decimals_refused :
    (AsmOperand.dec 2147483648).wellFormed = false ∧ (AsmOperand.dec (-2147483649)).wellFormed = false ∧
    (AsmOperand.dec 2147483647).wellFormed = true ∧ (AsmOperand.dec (-2147483648)).wellFormed = true ∧
    (Instr.i2fRtz 0x80000000#32).wellFormed = true := by decide

/-- R46's example `I2F_RTZ -1`, its result as written, and lines that are none. -/
theorem test_assembly_lines :
    assembleLine (mnemonicChars ++ ['-', '1']) = some (.i2fRtz 0xFFFFFFFF#32) ∧
    assembleLine (mnemonicChars ++ ['0', 'x', '8', '0', '0', '0', '0', '0', '0', '0']) = some (.i2fRtz 0x80000000#32) ∧
    assembleLine (mnemonicChars ++ ['0', 'x', '8']) = none ∧ assembleLine (mnemonicChars ++ ['1', 'a']) = none ∧
    writeResult 0xBF800000#32 = ['-', '>', ' ', '0', 'x', 'B', 'F', '8', '0', '0', '0', '0', '0'] := by decide

/-! ### Decoding -/

/-- `I2F_RTZ -16777219`, its word written out from R38 (95_test_vectors.md P4: `0xFEFFFFFD`). -/
theorem test_decode_word_of_minus_16777219 :
    decode 0b11111110111111111111111111111101#32 = .i2fRtz (BitVec.ofInt 32 (-16777219)) ∧
    encode (.i2fRtz (BitVec.ofInt 32 (-16777219))) = 0xFEFFFFFD#32 := by decide

/-- The table's numbering: a shorter `nbits` leaves the upper bits zero. -/
theorem test_decodeTableWord : decodeTableWord 32 0x000001F4 = some (.i2fRtz 500#32) ∧
    decodeTableWord 8 0x1F4 = some (.i2fRtz 0xF4#32) ∧ decodeTableWord 64 0 = none := by decide

/-- The bytes of `0x075BCD15` (123456789) in either order, and three bytes, which are no operand. -/
theorem test_decodeBytes :
    bytesOfWord .little 0x075BCD15#32 = [0x15#8, 0xCD#8, 0x5B#8, 0x07#8] ∧
    bytesOfWord .big 0x075BCD15#32 = [0x07#8, 0x5B#8, 0xCD#8, 0x15#8] ∧
    wordOfBytes .little 0x15#8 0xCD#8 0x5B#8 0x07#8 = 0x075BCD15#32 ∧
    wordOfBytes .big 0x07#8 0x5B#8 0xCD#8 0x15#8 = 0x075BCD15#32 := by decide

theorem test_decodeBytes_short : decodeBytes .big [0x07#8, 0x5B#8, 0xCD#8] = .error (.shortWord 3) := rfl

/-! ### The instruction and the step -/

/-- What a step leaves on the ports, in the observation and to be presented. -/
def afterStep (s : State) : Option State :=
  match step s with
  | .next t => some t
  | .fault _ => none
  | .refused _ => none

/-- A small state: two operands to come, ports as after `I2F_RTZ 1`. -/
def twoOperands : State :=
  { operands := [0xFEFFFFFD#32, 0#32], a := 1#32, z := 0x3F800000#32, observed := [(1#32, 0x3F800000#32)] }

/-- `I2F_RTZ -16777219` as one step (P4: `0xCB800001`), not the first of its run. -/
theorem test_i2fRtz_step : afterStep twoOperands =
    some { operands := [0#32], a := 0xFEFFFFFD#32, z := 0xCB800001#32,
           observed := [(1#32, 0x3F800000#32), (0xFEFFFFFD#32, 0xCB800001#32)] } := by decide

/-- The operands on which the wrong readings of 90_conflicts.md C1 to C3 show (T4, T5), with the results of the spec. -/
theorem test_i2fRtz_results :
    ([(0x00000000#32, 0x00000000#32), (0x00000001#32, 0x3F800000#32), (0x00000002#32, 0x40000000#32),
      (0x00000003#32, 0x40400000#32), (0xFFFFFE0C#32, 0xC3FA0000#32), (0x00FFFFFF#32, 0x4B7FFFFF#32),
      (0x01000001#32, 0x4B800000#32), (0x01000003#32, 0x4B800001#32), (0x075BCD15#32, 0x4CEB79A2#32),
      (0x7FFFFFFF#32, 0x4EFFFFFF#32), (0x80000001#32, 0xCEFFFFFF#32), (0x80000000#32, 0xCF000000#32)]
      : List (Word × Word)).all (fun p => i2fRtz p.1 == p.2) = true := by decide

/-- With no operand left the ports hold (log entry 3). -/
theorem test_hold : afterStep { twoOperands with operands := [] } = some { twoOperands with operands := [] } := by decide

/-- A word placed at reset is the first evaluation (P1 step 5). -/
theorem test_placed_at_reset : afterStep (State.reset.withFetchWord 32 5) =
    some { operands := [], a := 5#32, z := 0x40A00000#32, observed := [(5#32, 0x40A00000#32)] } := by decide

/-! ### Witnesses: the hypotheses of each statement can be met -/

theorem test_witness_ConversionCompletesWithTheDataPath :
    (1#32 : Word) ≠ 0#32 ∧ (2#32 : Word) ≠ 0#32 ∧ (signalsOf 1#32).shift = 31#5 ∧ (signalsOf 2#32).shift ≠ 31#5 := by decide

theorem test_witness_EitherByteOrderKeepsEveryBit :
    ([] : List Byte).length < 4 ∧ [0#8, 1#8, 2#8].length < 4 := by decide

theorem test_witness_DecimalOperandsEncodeExactlyInRange :
    ((-2147483649 : Int) < -2147483648) ∧ (2147483647 < (2147483648 : Int)) := by decide

theorem test_witness_PlacedWordIsTheNextEvaluation :
    decodeTableWord 32 0xFFFFFFFF = some (.i2fRtz 0xFFFFFFFF#32) ∧ decodeTableWord 0 7 = some (.i2fRtz 0#32) ∧
    decodeTableWord 33 0 = none := by decide

theorem test_witness_CopiesRunIndependently : [State.reset, twoOperands][1]? = some twoOperands := rfl

theorem test_witness_ScheduleOrderDoesNotMatter : [0, 1, 1].Perm [1, 0, 1] := by decide

theorem test_witness_StepKeepsSound : Sound { State.reset with operands := [5#32] } :=
  ⟨⟨by simp [trunc24], .inl rfl⟩, by simp⟩

theorem test_witness_MagnitudeIsTheAbsoluteValue :
    i32Min.toInt < 0 ∧ (0xFFFFFFFF#32 : Word).toInt < 0 ∧ signBit 0#32 = false ∧ signBit i32Max = false := by decide

/-- The decisions for 500 (R63's example: 1 0 1 1 1) and for `0x80000000` (none acts). -/
theorem test_witness_LadderDecisionsAreForced :
    (500#32 ≠ 0#32 ∧ ((((500#32 : Word) <<< 16) <<< 4) <<< 2 <<< 1).getLsbD 31 = true ∧
      ((((500#32 : Word) <<< 16) <<< 4) <<< 2 <<< 1).toNat = (500#32 : Word).toNat * 2 ^ (16 + 4 + 2 + 1)) ∧
    (i32Min ≠ 0#32 ∧ i32Min.getLsbD 31 = true ∧ i32Min.toNat = i32Min.toNat * 2 ^ 0) ∧
    (16 ∈ [16, 8, 4, 2, 1] ∧ 1 ∈ [16, 8, 4, 2, 1]) := by decide

theorem test_witness_LadderStagesKeepTheirPostconditions :
    s4 0x0000FFFF#32 = true ∧ s3 0x00FFFFFF#32 = true ∧ s2 0x0FFFFFFF#32 = true ∧ s1 0x3FFFFFFF#32 = true ∧
    s0 0x7FFFFFFF#32 = true ∧ (1#32 : Word) ≠ 0#32 := by decide

theorem test_witness_ShiftCountIsLeadingZeros : (1#32 : Word) ≠ 0#32 ∧ i32Min ≠ 0#32 := by decide

theorem test_witness_NormalisedWordKeepsEveryBit :
    (1#32 : Word) ≠ 0#32 ∧ 30 < (shiftCount 1#32).toNat ∧ 0 < 32 ∧ 31 < 32 := by decide

theorem test_witness_AlignedSignificandIsTheTopOfTheNormalisedWord :
    (24 ≤ 24 ∧ 24 < 32) ∧ (24 ≤ 31 ∧ 31 < 32) ∧ i32Max ≠ 0#32 ∧ i32Min ≠ 0#32 := by decide

/-- `2^24` and `2^24 + 1` (T4). -/
theorem test_witness_DroppedBitsNeverMatter :
    0x01000000#32 ≠ 0#32 ∧ 0x01000001#32 ≠ 0#32 ∧ signBit 0x01000000#32 = signBit 0x01000001#32 ∧
    shiftCount (magnitude 0x01000000#32) = shiftCount (magnitude 0x01000001#32) ∧
    (normWord (magnitude 0x01000000#32)).extractLsb' 8 24 = (normWord (magnitude 0x01000001#32)).extractLsb' 8 24 := by
  decide

/-- Shift counts 0, 7 and 8. -/
theorem test_witness_DroppedBitsByShiftCount :
    (i32Min ≠ 0#32 ∧ (shiftCount (magnitude i32Min)).toNat = 0) ∧
    (0x01FFFFFF#32 ≠ 0#32 ∧ (shiftCount (magnitude 0x01FFFFFF#32)).toNat < 8) ∧
    (0x00FFFFFF#32 ≠ 0#32 ∧ 8 ≤ (shiftCount (magnitude 0x00FFFFFF#32)).toNat) := by decide

theorem test_witness_MergeAddsTheImplicitBitToTheExponent : (1#32 : Word) ≠ 0#32 ∧ i32Min ≠ 0#32 := by decide

theorem test_witness_MergeNeverWraps : i32Min ≠ 0#32 ∧ (signalsOf i32Min).exp = 157#8 := by decide

theorem test_witness_SignInsertionSetsOnlyTheTopBit : signBit i32Max = false ∧ signBit i32Min = true := by decide

theorem test_witness_ResultByFieldsRefinesTheDataPath : (0#32 : Word) = 0#32 ∧ i32Min ≠ 0#32 := by decide

/-- 4 and 7, both of three significant bits (S9); the first and the last boundary. -/
theorem test_witness_ExponentFieldStepsAtPowersOfTwo :
    (1#32 : Word) ≠ 0#32 ∧
    (0 < (4#32 : Word).toInt ∧ (4#32 : Word).toInt < (7#32 : Word).toInt ∧ sigbits 4#32 = sigbits 7#32) ∧
    (1 ≤ 1 ∧ 1 ≤ 30) ∧ (1 ≤ 30 ∧ 30 ≤ 30) := by decide

theorem test_witness_ResultIsTheOperandTruncated :
    (Representable 0 ∧ |(0 : ℚ)| ≤ |((0#32 : Word).toInt : ℚ)|) ∧
    (shiftCount (magnitude 0x01000001#32)).toNat < 8 ∧
    ((0x4000007F#32 : Word).toInt.natAbs - (trunc24 (0x4000007F#32 : Word).toInt).natAbs = 127 ∧
      0 < (0x4000007F#32 : Word).toInt) := by
  refine ⟨⟨⟨0#32, fp32Value_zero⟩, by simp⟩, by decide, by decide⟩

/-- At `2^24`, and `2147483520 = 0x7FFFFF80`, whose set bits span 24 positions from bit 7. -/
theorem test_witness_ExactExactlyWhenNothingIsDropped :
    (0x01000000#32 : Word).toInt.natAbs ≤ 2 ^ 24 ∧ (0xFF000000#32 : Word).toInt.natAbs ≤ 2 ^ 24 ∧
    ((magnitude 0x7FFFFF80#32).toNat < 2 ^ (7 + 24) ∧ 2 ^ 7 ∣ (magnitude 0x7FFFFF80#32).toNat) := by decide

theorem test_witness_OnlyZeroGivesZero : i2fRtz 0x00000000#32 = 0x00000000#32 := by decide

/-- 1, `I32_MAX`, -1, `-(2^31 - 1)`; exponent fields 127 and 150. -/
theorem test_witness_ResultsLieInTheCodeSpace :
    1 ≤ (1#32 : Word).toInt ∧ 1 ≤ i32Max.toInt ∧
    (-(2 ^ 31 - 1) ≤ (0xFFFFFFFF#32 : Word).toInt ∧ (0xFFFFFFFF#32 : Word).toInt ≤ -1) ∧
    (-(2 ^ 31 - 1) ≤ (0x80000001#32 : Word).toInt ∧ (0x80000001#32 : Word).toInt ≤ -1) ∧
    (127 ≤ (expField (i2fRtz 1#32)).toNat ∧ (expField (i2fRtz 1#32)).toNat ≤ 150) ∧
    (127 ≤ (expField (i2fRtz 0x00FFFFFF#32)).toNat ∧ (expField (i2fRtz 0x00FFFFFF#32)).toNat ≤ 150) := by decide

theorem test_witness_ResultsAreZeroOrNormal : (0#32 : Word) = 0#32 ∧ i32Min ≠ 0#32 := by decide

theorem test_witness_NegationFlipsOnlyTheSign : i32Max ≠ 0#32 ∧ i32Max ≠ i32Min := by decide

theorem test_witness_ConversionIsMonotone :
    (0#32 : Word).toInt ≤ i32Max.toInt ∧ 0 ≤ (0#32 : Word).toInt ∧
    i32Min.toInt ≤ (0xFFFFFFFF#32 : Word).toInt ∧ (0xFFFFFFFF#32 : Word).toInt < 0 := by decide

/-- `2^24 - 1`, `2^24 + 2`, and `2^24 + 3`, where the two conversions differ (S5). -/
theorem test_witness_NativeConversionDivergesByOnePattern :
    (0x00FFFFFF#32 : Word).toInt.natAbs < 2 ^ 24 ∧
    (0 < (0x01000002#32 : Word).toInt ∧ (0x01000002#32 : Word).toInt < 16777219) ∧
    fp32Value (i2fRtz 0x01000003#32) ≠ some (nativeRne (0x01000003#32 : Word).toInt : ℚ) := by
  refine ⟨by decide, by decide, ?_⟩
  have hr : nativeRne (0x01000003#32 : Word).toInt = 16777220 := by decide
  rw [hr, fp32Value_of_fields (i2fRtz 0x01000003#32) false 151 1 (by decide) (by decide) (by decide) (by decide) (by decide)]
  norm_num

end Sys2Proof.Tests
end

section
/-! SUPPORT. Facts about the operand word (30_encoding.md R38, 40_converter_top.md R48 to R50), and the statement on its
sign. -/

namespace Sys2Proof.Machine

/-- Zero detect as an equation (40_converter_top.md R48). -/
theorem isZero_iff (a : Word) : isZero a = true ↔ a = 0#32 := beq_iff_eq

/-- The sign is the library's most significant bit (R49). -/
theorem signBit_eq_msb (a : Word) : signBit a = a.msb := (BitVec.msb_eq_getLsbD_last a).symm

/-- The sign is 1 exactly when the operand is negative (R49). -/
theorem signBit_iff_neg (a : Word) : signBit a = true ↔ a.toInt < 0 := by
  rw [signBit_eq_msb, BitVec.msb_eq_toInt, decide_eq_true_eq]

/-- The operand's value: the low 31 bits less `2^31` times the sign (R38). -/
theorem toInt_eq_low_sub_sign (a : Word) :
    a.toInt = (a.toNat % 2 ^ 31 : Nat) - 2 ^ 31 * ((signBit a).toNat : Int) := by
  rw [signBit_eq_msb, BitVec.toInt_eq_msb_cond]
  cases hmsb : a.msb
  · have := BitVec.toNat_lt_of_msb_false hmsb
    simp only [Bool.false_eq_true, if_false, Bool.toNat_false]
    omega
  · have := BitVec.le_toNat_of_msb_true hmsb
    simp only [if_true, Bool.toNat_true]
    omega

/-- The value is 0 for the all-zero word only (R38). -/
theorem toInt_eq_zero_iff (a : Word) : a.toInt = 0 ↔ a = 0#32 := by
  rw [← BitVec.toInt_inj, BitVec.toInt_zero]

/-- The magnitude is the library's absolute value, which wraps at `I32_MIN` as R51 says. -/
theorem magnitude_eq_abs (a : Word) : magnitude a = a.abs := by
  rw [magnitude, signBit_eq_msb, BitVec.abs_eq, BitVec.zero_sub]

/-- The magnitude is the absolute value of the operand, `I32_MIN` included (R50). -/
theorem magnitude_toNat (a : Word) : (magnitude a).toNat = a.toInt.natAbs := by
  rw [magnitude_eq_abs, BitVec.toNat_abs, BitVec.toInt_eq_msb_cond]
  split_ifs <;> omega

/-- Only zero has magnitude zero (R50). -/
theorem magnitude_toNat_pos (a : Word) (h : a ≠ 0#32) : 0 < (magnitude a).toNat := by
  rw [magnitude_toNat, Int.natAbs_pos]
  exact fun h0 => h ((toInt_eq_zero_iff a).1 h0)

/-- A magnitude of `2^31` or more is that of `I32_MIN` alone (R51). -/
theorem two_pow_31_le_magnitude_iff (a : Word) : 2 ^ 31 ≤ (magnitude a).toNat ↔ a = i32Min := by
  have h : a = i32Min ↔ a.toInt = -2 ^ 31 := by rw [← BitVec.toInt_inj]; rfl
  have := a.le_toInt
  have := a.toInt_lt
  rw [magnitude_toNat, h]
  omega

/-- Settles O22: the sign is the most significant bit, in whose two cases the value's formula holds. -/
theorem signIsTheOperandsTopBit : Obligations.SignIsTheOperandsTopBit := fun a =>
  ⟨rfl, signBit_iff_neg a, toInt_eq_low_sub_sign a, (toInt_eq_zero_iff a).trans (isZero_iff a).symm, by decide⟩

end Sys2Proof.Machine
end

section
/-! SUPPORT. The ladder as a whole (41_lzd_exponent.md R56 to R63): the normalised word is the magnitude times a power
of two, and its bit 31 is set. -/

namespace Sys2Proof.Machine

/-- A stage multiplies by `2^n` or by 1, as it decides. -/
theorem stageOut_toNat_mul (n : Nat) (hn : n ≤ 32) (v : Word) :
    (stageOut n v).toNat = v.toNat * 2 ^ (n * (stageActs n v).toNat) := by
  have hacts := stageActs_iff_lt n hn v
  rw [stageOut_toNat n hn v]
  cases h : stageActs n v
  · rw [if_neg (by simpa [h] using hacts)]; simp
  · rw [if_pos (hacts.1 h)]; simp

/-- A stage that shifts by `n` leaves fewer than `n` leading zeros where it is given fewer than `2 * n`. -/
theorem le_stageOut_toNat (n : Nat) (hn : 2 * n ≤ 32) (v : Word) (hv : 2 ^ (32 - 2 * n) ≤ v.toNat) :
    2 ^ (32 - n) ≤ (stageOut n v).toNat := by
  rw [stageOut_toNat n (by omega) v]
  split_ifs with hlt
  · calc 2 ^ (32 - n) = 2 ^ (32 - 2 * n) * 2 ^ n := by rw [← pow_add]; congr 1; omega
      _ ≤ v.toNat * 2 ^ n := by gcongr
  · omega

/-- No set bit is lost: the normalised word is the magnitude times `2^shift` (R63). -/
theorem normWord_toNat (m : Word) : (normWord m).toNat = m.toNat * 2 ^ (shiftCount m).toNat := by
  have h4 : (v4 m).toNat = m.toNat * 2 ^ (16 * (s4 m).toNat) := stageOut_toNat_mul 16 (by decide) _
  have h3 : (v3 m).toNat = (v4 m).toNat * 2 ^ (8 * (s3 m).toNat) := stageOut_toNat_mul 8 (by decide) _
  have h2 : (v2 m).toNat = (v3 m).toNat * 2 ^ (4 * (s2 m).toNat) := stageOut_toNat_mul 4 (by decide) _
  have h1 : (v1 m).toNat = (v2 m).toNat * 2 ^ (2 * (s1 m).toNat) := stageOut_toNat_mul 2 (by decide) _
  have h0 : (normWord m).toNat = (v1 m).toNat * 2 ^ (1 * (s0 m).toNat) := stageOut_toNat_mul 1 (by decide) _
  rw [h0, h1, h2, h3, h4, shiftCount_toNat, one_mul]
  simp only [pow_add, mul_assoc]

/-- The five stages bring the highest set bit of a nonzero magnitude to bit 31 (R58 to R62). -/
theorem le_normWord_toNat (m : Word) (hm : 0 < m.toNat) : 2 ^ 31 ≤ (normWord m).toNat := by
  have h4 : 2 ^ 16 ≤ (v4 m).toNat := le_stageOut_toNat 16 (by decide) _ hm
  have h3 : 2 ^ 24 ≤ (v3 m).toNat := le_stageOut_toNat 8 (by decide) _ h4
  have h2 : 2 ^ 28 ≤ (v2 m).toNat := le_stageOut_toNat 4 (by decide) _ h3
  have h1 : 2 ^ 30 ≤ (v1 m).toNat := le_stageOut_toNat 2 (by decide) _ h2
  exact le_stageOut_toNat 1 (by decide) _ h1

/-- The shift count of a nonzero operand is 0 for `I32_MIN` alone (R63). -/
theorem shiftCount_eq_zero_iff (a : Word) (ha : a ≠ 0#32) : (shiftCount (magnitude a)).toNat = 0 ↔ a = i32Min := by
  constructor
  · intro h
    have hn := normWord_toNat (magnitude a)
    have hle := le_normWord_toNat _ (magnitude_toNat_pos a ha)
    rw [h, pow_zero, mul_one] at hn
    rwa [hn, two_pow_31_le_magnitude_iff] at hle
  · rintro rfl
    decide

end Sys2Proof.Machine
end

section
/-! SUPPORT. The result and its fields in numbers (42_normalizer_packer.md R72 to R75), and the statement on the code
space (30_encoding.md R44). -/

namespace Sys2Proof.Machine

/-- The result for a nonzero operand: the merge neither wraps nor reaches bit 31, and the sign is added above it
(R73, R74). -/
theorem i2fRtz_toNat (a : Word) (ha : a ≠ 0#32) :
    (i2fRtz a).toNat = (normWord (magnitude a)).toNat / 2 ^ 8 +
      (157 - (shiftCount (magnitude a)).toNat) * 2 ^ 23 + (signBit a).toNat * 2 ^ 31 := by
  have hz : isZero a = false := by simpa [isZero] using ha
  have hnorm := (normWord (magnitude a)).isLt
  have hexp : (expValue (shiftCount (magnitude a))).toNat = 157 - (shiftCount (magnitude a)).toNat := by
    have := expValue_toNat_add (shiftCount (magnitude a))
    omega
  have hpacked : (packedWord (mantWord (normWord (magnitude a))) (expValue (shiftCount (magnitude a)))).toNat =
      (normWord (magnitude a)).toNat / 2 ^ 8 + (157 - (shiftCount (magnitude a)).toNat) * 2 ^ 23 := by
    rw [packedWord_toNat, mantWord_toNat, hexp]
    exact Nat.mod_eq_of_lt (by omega)
  rw [i2fRtz_eq, hz, outputSelect, if_neg (by decide), signedWord_toNat _ _ (by rw [hpacked]; omega), hpacked]

/-- The exponent field of a nonzero operand's result (R75). -/
theorem expField_i2fRtz (a : Word) (ha : a ≠ 0#32) :
    (expField (i2fRtz a)).toNat = 158 - (shiftCount (magnitude a)).toNat := by
  have hle := le_normWord_toNat _ (magnitude_toNat_pos a ha)
  have hlt := (normWord (magnitude a)).isLt
  have hs := (shiftCount (magnitude a)).isLt
  have hb := (signBit a).toNat_le
  rw [expField_toNat, i2fRtz_toNat a ha]
  omega

/-- The mantissa field of a nonzero operand's result (R75). -/
theorem fracField_i2fRtz (a : Word) (ha : a ≠ 0#32) :
    (fracField (i2fRtz a)).toNat = (normWord (magnitude a)).toNat / 2 ^ 8 % 2 ^ 23 := by
  rw [fracField_toNat, i2fRtz_toNat a ha]
  omega

/-- The exponent field of a nonzero operand's result lies in 127 to 158 (R75). -/
theorem expField_i2fRtz_range (a : Word) (ha : a ≠ 0#32) :
    127 ≤ (expField (i2fRtz a)).toNat ∧ (expField (i2fRtz a)).toNat ≤ 158 := by
  have hs := (shiftCount (magnitude a)).isLt
  rw [expField_i2fRtz a ha]
  omega

/-- The largest exponent field is reached for `I32_MIN` alone (R63, R75). -/
theorem expField_i2fRtz_eq_158_iff (a : Word) (ha : a ≠ 0#32) : (expField (i2fRtz a)).toNat = 158 ↔ a = i32Min := by
  rw [expField_i2fRtz a ha, ← shiftCount_eq_zero_iff a ha]
  omega

@[simp] theorem i2fRtz_zero : i2fRtz 0#32 = 0x00000000#32 := by decide

@[simp] theorem i2fRtz_i32Min : i2fRtz i32Min = 0xCF000000#32 := by decide

/-- Only zero gives the all-zero pattern: every other result has a nonzero exponent field (R44). -/
theorem i2fRtz_eq_zero_iff (a : Word) : i2fRtz a = 0x00000000#32 ↔ a = 0#32 := by
  constructor
  · intro hz
    by_contra ha
    have hrange := expField_i2fRtz_range a ha
    rw [hz] at hrange
    exact absurd hrange (by decide)
  · rintro rfl
    exact i2fRtz_zero

/-- A result with exponent field 158 is that of `I32_MIN` (R44). -/
theorem eq_i32Min_of_i2fRtz_eq {a z : Word} (h : i2fRtz a = z) (hz : (expField z).toNat = 158) : a = i32Min := by
  have ha : a ≠ 0#32 := by
    rintro rfl
    rw [← h] at hz
    exact absurd hz (by decide)
  rwa [← expField_i2fRtz_eq_158_iff a ha, h]

/-- The pattern `0xCF000000` is the result for `I32_MIN` alone (R44). -/
theorem i2fRtz_eq_min_iff (a : Word) : i2fRtz a = 0xCF000000#32 ↔ a = i32Min :=
  ⟨fun h => eq_i32Min_of_i2fRtz_eq h (by decide), fun h => h ▸ i2fRtz_i32Min⟩

/-- The pattern of `2^31` is no result: only `I32_MIN` has its exponent field, and that result is negative (R44). -/
theorem i2fRtz_ne_two_pow_31 (a : Word) : i2fRtz a ≠ 0x4F000000#32 := by
  intro h
  rw [eq_i32Min_of_i2fRtz_eq h (by decide)] at h
  exact absurd h (by decide)

/-- The range of the result patterns of either sign, 0 and `I32_MIN` apart (R44). -/
theorem i2fRtz_toNat_range (a : Word) (ha : a ≠ 0#32) (hmin : a ≠ i32Min) :
    0x3F800000 + (signBit a).toNat * 2 ^ 31 ≤ (i2fRtz a).toNat ∧
      (i2fRtz a).toNat ≤ 0x4EFFFFFF + (signBit a).toNat * 2 ^ 31 := by
  have hle := le_normWord_toNat _ (magnitude_toNat_pos a ha)
  have hlt := (normWord (magnitude a)).isLt
  have hs := (shiftCount (magnitude a)).isLt
  have hs0 := mt (shiftCount_eq_zero_iff a ha).1 hmin
  rw [i2fRtz_toNat a ha]
  omega

/-- The results for the positive operands (R44). -/
theorem i2fRtz_range_of_pos (a : Word) (h : 1 ≤ a.toInt) :
    0x3F800000 ≤ (i2fRtz a).toNat ∧ (i2fRtz a).toNat ≤ 0x4EFFFFFF := by
  have hsign : signBit a = false := by rw [Bool.eq_false_iff, Ne, signBit_iff_neg]; omega
  have ha : a ≠ 0#32 := by rintro rfl; exact absurd h (by decide)
  have hmin : a ≠ i32Min := by rintro rfl; exact absurd h (by decide)
  simpa [hsign] using i2fRtz_toNat_range a ha hmin

/-- The results for the negative operands but `I32_MIN` (R44). -/
theorem i2fRtz_range_of_neg (a : Word) (hlow : -(2 ^ 31 - 1) ≤ a.toInt) (h : a.toInt ≤ -1) :
    0xBF800000 ≤ (i2fRtz a).toNat ∧ (i2fRtz a).toNat ≤ 0xCEFFFFFF := by
  have hsign : signBit a = true := by rw [signBit_iff_neg]; omega
  have ha : a ≠ 0#32 := by rintro rfl; exact absurd h (by decide)
  have hmin : a ≠ i32Min := by rintro rfl; exact absurd hlow (by decide)
  simpa [hsign] using i2fRtz_toNat_range a ha hmin

/-- A magnitude below `2^24` was shifted left by at least 8, so the mantissa field ends in the zeros that were not
shifted out again: `150 - E` of them (R44). -/
theorem fracField_i2fRtz_low_zero (a : Word) (hlow : 127 ≤ (expField (i2fRtz a)).toNat)
    (hhigh : (expField (i2fRtz a)).toNat ≤ 150) :
    (fracField (i2fRtz a)).toNat % 2 ^ (150 - (expField (i2fRtz a)).toNat) = 0 := by
  have ha : a ≠ 0#32 := by rintro rfl; exact absurd hlow (by decide)
  have hs := (shiftCount (magnitude a)).isLt
  rw [expField_i2fRtz a ha] at hhigh ⊢
  obtain ⟨j, hj⟩ : ∃ j, (shiftCount (magnitude a)).toNat = j + 8 := ⟨_, (Nat.sub_add_cancel (by omega)).symm⟩
  have hnorm : (normWord (magnitude a)).toNat / 2 ^ 8 = (magnitude a).toNat * 2 ^ j := by
    rw [normWord_toNat, hj, pow_add, ← mul_assoc, Nat.mul_div_cancel _ (by decide)]
  have hexp : 150 - (158 - (shiftCount (magnitude a)).toNat) = j := by omega
  have hdvd : 2 ^ j ∣ 2 ^ 23 := pow_dvd_pow 2 (by omega)
  rw [fracField_i2fRtz a ha, hnorm, hexp, Nat.mod_mod_of_dvd _ hdvd, Nat.mul_mod_left]

/-- A pattern whose exponent field is neither 0 nor 255 is normal (R39, R82). -/
theorem classify_normal (z : Word) (h0 : (expField z).toNat ≠ 0) (h255 : (expField z).toNat ≠ 255) :
    classify z = .normal := by
  rw [classify, if_neg h0, if_neg h255]

/-- Every result is positive zero or normal (R44). -/
theorem classify_i2fRtz (a : Word) : classify (i2fRtz a) = .posZero ∨ classify (i2fRtz a) = .normal := by
  by_cases ha : a = 0#32
  · exact .inl (by rw [ha, i2fRtz_zero]; decide)
  · obtain ⟨hlow, hhigh⟩ := expField_i2fRtz_range a ha
    exact .inr (classify_normal _ (by omega) (by omega))

/-- Settles O43: the clauses of R44's table, each read off the result's number or its exponent field, which is 158 less
the shift count. -/
theorem resultsLieInTheCodeSpace : Obligations.ResultsLieInTheCodeSpace := fun a =>
  ⟨i2fRtz_eq_zero_iff a, i2fRtz_range_of_pos a, i2fRtz_range_of_neg a, i2fRtz_eq_min_iff a,
    fracField_i2fRtz_low_zero a, classify_i2fRtz a, i2fRtz_ne_two_pow_31 a⟩

end Sys2Proof.Machine
end

section
/-! SUPPORT. The decoder and the one instruction (30_encoding.md R37), and the statement that every word is a legal
operand (R43). -/

namespace Sys2Proof.Machine

/-- The table's 32-bit number of a word is that word (R45). -/
@[simp] theorem tableWord_toNat (w : Word) : tableWord 32 w.toNat = some w := by
  rw [tableWord, if_pos le_rfl, Nat.mod_eq_of_lt w.isLt, BitVec.ofNat_toNat, BitVec.setWidth_eq]

/-- `exec` of the one instruction is one evaluation (40_converter_top.md R47). -/
theorem exec_i2fRtz (a : Word) (s : State) : exec (.i2fRtz a) s = .next (s.present a).settle.observe := rfl

/-- From every state `exec` puts the result on `z`, and no other word (R43). -/
theorem exec_i2fRtz_z_iff (a z : Word) :
    (∀ s : State, ∃ t : State, exec (.i2fRtz a) s = .next t ∧ t.z = z) ↔ z = i2fRtz a := by
  simp only [exec_i2fRtz, Host.Outcome.next.injEq, exists_eq_left', State.observe_z, State.settle_z, State.present_a]
  exact ⟨fun h => (h State.reset).symm, fun h _ => h.symm⟩

/-- Settles O4: the decoder is constant in the operation, and the one word that `exec` can put on `z` is the result. -/
theorem everyWordIsALegalOperand : Obligations.EveryWordIsALegalOperand := by
  refine ⟨rfl, rfl, fun | .i2fRtz a => ⟨a, rfl⟩, fun w => ?_⟩
  obtain ⟨hwf, hmatch, hdecode⟩ := Laws.WordRoundTrip.i2fRtz w
  refine ⟨hmatch, hdecode, hwf, by rw [decodeTableWord, tableWord_toNat]; rfl, i2fRtz w, ?_, fun z hz => ?_⟩
  · exact (exec_i2fRtz_z_iff w _).2 rfl
  · exact (exec_i2fRtz_z_iff w z).1 hz

end Sys2Proof.Machine
end

section
/-! SUPPORT. Negation modulo `2^32` (43_numeric_laws.md R79), and the statements on the operand's zero detect and
magnitude (40_converter_top.md R48, R50). -/

namespace Sys2Proof.Machine

/-- Zero is the word whose 32 bits are all 0 (R48). -/
theorem eq_zero_iff_getLsbD (a : Word) : a = 0#32 ↔ ∀ i < 32, a.getLsbD i = false := by
  simp only [BitVec.eq_of_getLsbD_eq_iff, BitVec.getLsbD_zero]

/-- Only zero has magnitude zero (R50). -/
theorem magnitude_eq_zero_iff (a : Word) : magnitude a = 0#32 ↔ a = 0#32 := by
  rw [← BitVec.toNat_inj, magnitude_toNat, BitVec.toNat_zero, Int.natAbs_eq_zero, toInt_eq_zero_iff]

/-- Settles O21: `isZero` is the equality with zero, which can be read off the bits or off the magnitude. -/
theorem zeroDetectIsNorOfTheOperand : Obligations.ZeroDetectIsNorOfTheOperand := fun a =>
  ⟨isZero_iff a, (isZero_iff a).trans (eq_zero_iff_getLsbD a), (isZero_iff a).trans (magnitude_eq_zero_iff a).symm⟩

/-- Zero and `I32_MIN` are the two words that are their own negation (R79). -/
theorem neg_eq_self_iff_zero_or_i32Min (x : Word) : -x = x ↔ x = 0#32 ∨ x = i32Min := by
  have hx := x.isLt
  have hmin : i32Min.toNat = 2 ^ 31 := by decide
  simp only [← BitVec.toNat_inj, BitVec.toNat_neg, BitVec.toNat_zero, hmin]
  omega

/-- For a negative operand the magnitude is the negation (R50). -/
theorem magnitude_of_neg (a : Word) (h : a.toInt < 0) : magnitude a = -a := by
  rw [magnitude, if_pos ((signBit_iff_neg a).2 h), BitVec.zero_sub]

/-- For sign 0 the magnitude is the operand (R50). -/
theorem magnitude_of_signBit_false (a : Word) (h : signBit a = false) : magnitude a = a := by
  rw [magnitude, h, if_neg (by decide)]

/-- The negation of a negative word is the absolute value of its integer, as an unsigned number (R79). -/
theorem toNat_neg_of_toInt_neg (x : Word) (h : x.toInt < 0) : ((-x).toNat : Int) = -x.toInt := by
  rw [← magnitude_of_neg x h, magnitude_toNat, Int.ofNat_natAbs_of_nonpos h.le]

/-- The magnitude with the negation spelled as complement plus one (R50). -/
theorem magnitude_eq_not_add (a : Word) : magnitude a = if signBit a then ~~~a + 1#32 else a := by
  rw [magnitude, BitVec.zero_sub, BitVec.neg_eq_not_add]

/-- The largest magnitude is that of `I32_MIN` (R50, R51). -/
theorem magnitude_toNat_le (a : Word) : (magnitude a).toNat ≤ 2 ^ 31 := by
  have := a.le_toInt
  have := a.toInt_lt
  rw [magnitude_toNat]
  omega

/-- Settles O23: the negation in numbers and its fixed points, then the magnitude as the integer's absolute value. -/
theorem magnitudeIsTheAbsoluteValue : Obligations.MagnitudeIsTheAbsoluteValue := by
  refine ⟨fun x => ?_, fun a => ?_⟩
  · rw [BitVec.zero_sub]
    exact ⟨BitVec.toNat_neg x, BitVec.neg_eq_zero_iff, neg_eq_self_iff_zero_or_i32Min x, toNat_neg_of_toInt_neg x⟩
  · refine ⟨magnitude_toNat a, rfl, magnitude_eq_not_add a, magnitude_toNat_le a, magnitude_eq_zero_iff a,
      fun h => ?_⟩
    rw [magnitude_of_signBit_false a h]
    exact h

end Sys2Proof.Machine
end

section
/-! SUPPORT. The result as R47's pseudocode and the output select write it, the operands with shift count 31, and the
statements on the whole converter (40_converter_top.md R47, R51, R52). -/

namespace Sys2Proof.Machine

/-- The exponent value is 157 less the shift count, as R47 writes it: the 8-bit subtraction never borrows (R65). -/
theorem expValue_eq_ofNat (shift : BitVec 5) : expValue shift = BitVec.ofNat 8 (157 - shift.toNat) := by
  have h := expValue_toNat_add shift
  rw [← BitVec.toNat_inj, BitVec.toNat_ofNat]
  omega

/-- After an evaluation the ports hold the operand and its result (R47, 10_state.md R17). -/
theorem exec_i2fRtz_ports (a : Word) (s : State) :
    ∃ t : State, exec (.i2fRtz a) s = .next t ∧ t.a = a ∧ t.z = i2fRtz a :=
  ⟨_, exec_i2fRtz a s, by simp⟩

/-- Of the nonzero magnitudes 1 alone is shifted by 31: a larger one would leave the word (R47). -/
theorem shiftCount_eq_31_iff (m : Word) (hm : 0 < m.toNat) : shiftCount m = 31#5 ↔ m = 1#32 := by
  constructor
  · intro h
    have h31 : (shiftCount m).toNat = 31 := congrArg BitVec.toNat h
    have hlt := (normWord m).isLt
    rw [normWord_toNat, h31] at hlt
    rw [← BitVec.toNat_inj, BitVec.toNat_ofNat]
    omega
  · rintro rfl
    decide

/-- The operands of magnitude 1 are 1 and -1 (R50). -/
theorem magnitude_eq_one_iff (a : Word) : magnitude a = 1#32 ↔ a = 1#32 ∨ a = 0xFFFFFFFF#32 := by
  have h1 : (1#32 : Word).toInt = 1 := by decide
  have hneg : (0xFFFFFFFF#32 : Word).toInt = -1 := by decide
  rw [← BitVec.toNat_inj, magnitude_toNat, ← BitVec.toInt_inj, ← BitVec.toInt_inj, h1, hneg]
  exact Int.natAbs_eq_iff

/-- R47's example, operand 5, wire by wire. -/
theorem signalsOf_five : signalsOf 5#32 =
    { isZero := false, sign := false, m := 0x00000005#32, v5 := 0x00000005#32
      s4 := true, v4 := 0x00050000#32, s3 := true, v3 := 0x05000000#32, s2 := true, v2 := 0x50000000#32
      s1 := false, v1 := 0x50000000#32, s0 := true, v0 := 0xA0000000#32
      shift := 29#5, exp := 128#8, norm := 0xA0000000#32, mantWord := 0x00A00000#32
      packed := 0x40A00000#32, signedWord := 0x40A00000#32, z := 0x40A00000#32 } := by
  decide

/-- The pattern of R47's example stands for the operand itself. -/
theorem fp32Value_five : fp32Value 0x40A00000#32 = some 5 := by
  rw [fp32Value_of_fields _ false 129 0x200000 (by decide) (by decide) (by decide) (by decide) (by decide)]
  norm_num

/-- Settles O1: the model's wires are the pseudocode's, but for the exponent, which R47 takes from the sum of the
shift amounts. -/
theorem conversionCompletesWithTheDataPath : Obligations.ConversionCompletesWithTheDataPath := by
  refine ⟨fun a s => ?_, ?_, fun a ha => ?_⟩
  · obtain ⟨t, hexec, hta, htz⟩ := exec_i2fRtz_ports a s
    refine ⟨t, hexec, hta, ?_⟩
    rw [htz, i2fRtz_eq, expValue_eq_ofNat, shiftCount_toNat]
    rfl
  · simp [signalsOf_five, fp32Value_five]
  · exact (shiftCount_eq_31_iff _ (magnitude_toNat_pos a ha)).trans (magnitude_eq_one_iff a)

/-- Settles O24: the wires of the one operand by evaluation, its result from every state, and the value by fields. -/
theorem minimumOperandWrapsAround : Obligations.MinimumOperandWrapsAround := by
  refine ⟨by decide, by decide, by decide, (exec_i2fRtz_z_iff i32Min _).2 i2fRtz_i32Min.symm, ?_⟩
  rw [fp32Value_of_fields _ true 158 0 (by decide) (by decide) (by decide) (by decide) (by decide)]
  norm_num

/-- The result is the all-zero word for zero and the signed word otherwise (R52). -/
theorem i2fRtz_eq_ite (a : Word) :
    i2fRtz a = if a = 0x00000000#32 then 0x00000000#32 else (signalsOf a).signedWord := by
  by_cases ha : a = 0#32
  · rw [if_pos ha, ha, i2fRtz_zero]
  · rw [if_neg ha, i2fRtz_eq, outputSelect, if_neg (mt (isZero_iff a).1 ha)]
    rfl

/-- Settles O25: the select for every operand, the wires for zero by evaluation, and the value 0.5 by fields. -/
theorem zeroSelectIsNecessary : Obligations.ZeroSelectIsNecessary := by
  refine ⟨i2fRtz_eq_ite, by decide, ?_⟩
  rw [fp32Value_of_fields _ false 126 0 (by decide) (by decide) (by decide) (by decide) (by decide)]
  norm_num

end Sys2Proof.Machine
end

section
/-! SUPPORT. The statements on the ladder and the exponent encoder (41_lzd_exponent.md R57 to R65). A decision is a
comparison with the stage's threshold, and only a shift by `clz` normalises a nonzero magnitude. -/

namespace Sys2Proof.Machine

/-- A stage that acts multiplies by `2^n`: the bits shifted out are zero (R58 to R62). -/
theorem stageOut_toNat_of_acts (n : Nat) (hn : n ≤ 32) (v : Word) (h : stageActs n v = true) :
    (stageOut n v).toNat = v.toNat * 2 ^ n := by
  rw [stageOut_toNat n hn v, if_pos ((stageActs_iff_lt n hn v).1 h)]

/-- A stage acts exactly when the top `n` bits of its input are zero (R57). -/
theorem stageActs_iff_top_bits_zero (n : Nat) (hn : n ≤ 32) (v : Word) :
    stageActs n v = true ↔ ∀ i, 32 - n ≤ i → i < 32 → v.getLsbD i = false := by
  rw [stageActs_iff_lt n hn v]
  constructor
  · intro hlt i hi _
    exact Nat.testBit_eq_false_of_lt (hlt.trans_le (Nat.pow_le_pow_right (by decide) hi))
  · intro hbits
    refine Nat.lt_pow_two_of_testBit _ fun i hi => ?_
    rcases Nat.lt_or_ge i 32 with h | h
    · exact hbits i hi h
    · exact BitVec.getLsbD_of_ge v i h

/-- Only a shift by `clz` takes the highest set bit to bit 31 without losing a bit (R57, R63). -/
theorem eq_clz_of_normalised (m w : Word) (k : Nat) (hw : w.toNat = m.toNat * 2 ^ k) (hle : 2 ^ 31 ≤ w.toNat) :
    k = clz m := by
  have hlt := w.isLt
  rw [hw] at hlt hle
  have hm : m.toNat ≠ 0 := by
    intro h0
    rw [h0, Nat.zero_mul] at hle
    exact absurd hle (by decide)
  have hk : k < 32 := by
    refine (Nat.pow_lt_pow_iff_right (a := 2) (by decide)).1 (lt_of_le_of_lt ?_ hlt)
    exact Nat.le_mul_of_pos_left _ (Nat.pos_of_ne_zero hm)
  have hlog : Nat.log2 m.toNat = 31 - k := by
    rw [Nat.log2_eq_iff hm]
    constructor
    · refine Nat.le_of_mul_le_mul_right ?_ (Nat.two_pow_pos k)
      rwa [← pow_add, Nat.sub_add_cancel (by omega)]
    · refine Nat.lt_of_mul_lt_mul_right (a := 2 ^ k) ?_
      rwa [← pow_add, show 31 - k + 1 + k = 32 by omega]
  rw [clz, hlog]
  omega

/-- The shift count of a nonzero magnitude is its number of leading zeros (R63). -/
theorem shiftCount_eq_clz (m : Word) (hm : 0 < m.toNat) : (shiftCount m).toNat = clz m :=
  eq_clz_of_normalised m (normWord m) _ (normWord_toNat m) (le_normWord_toNat m hm)

/-- Five decisions are determined by the sum of their shift amounts. -/
theorem decisions_eq_of_sum_eq {b4 b3 b2 b1 b0 d4 d3 d2 d1 d0 : Bool}
    (h : 16 * b4.toNat + 8 * b3.toNat + 4 * b2.toNat + 2 * b1.toNat + b0.toNat =
      16 * d4.toNat + 8 * d3.toNat + 4 * d2.toNat + 2 * d1.toNat + d0.toNat) :
    b4 = d4 ∧ b3 = d3 ∧ b2 = d2 ∧ b1 = d1 ∧ b0 = d0 := by
  revert b4 b3 b2 b1 b0 d4 d3 d2 d1 d0
  decide

/-- Settles O26: a decision is a comparison with the threshold; five decisions that normalise a magnitude shift it by
`clz`, as the ladder's own do, and the sum of the amounts tells the decisions. -/
theorem ladderDecisionsAreForced : Obligations.LadderDecisionsAreForced := by
  refine ⟨fun n hn v => ?_, ?_⟩
  · have hn32 : n ≤ 32 := by
      revert n
      decide
    exact ⟨stageActs_iff_top_bits_zero n hn32 v, stageActs_iff_lt n hn32 v⟩
  · intro m b4 b3 b2 b1 b0 w4 w3 w2 w1 w0 hm hbit hval
    have hpos : 0 < m.toNat := BitVec.toNat_pos_of_ne_zero hm
    apply decisions_eq_of_sum_eq
    rw [← shiftCount_toNat, shiftCount_eq_clz m hpos]
    exact eq_clz_of_normalised m w0 _ hval ((signField_iff w0).1 hbit)

/-- Settles O27: the decisions and values are the model's; a stage that acts multiplies by its power of two, and each
stage halves the leading zeros that can be left. -/
theorem ladderStagesKeepTheirPostconditions : Obligations.LadderStagesKeepTheirPostconditions := by
  refine fun m => ⟨⟨rfl, rfl, stageOut_toNat_of_acts 16 (by decide) _⟩,
    ⟨rfl, rfl, stageOut_toNat_of_acts 8 (by decide) _⟩, ⟨rfl, rfl, stageOut_toNat_of_acts 4 (by decide) _⟩,
    ⟨rfl, rfl, stageOut_toNat_of_acts 2 (by decide) _⟩, ⟨rfl, rfl, stageOut_toNat_of_acts 1 (by decide) _⟩,
    fun hm => ?_⟩
  have hpos : 0 < m.toNat := BitVec.toNat_pos_of_ne_zero hm
  have h4 : 2 ^ 16 ≤ (v4 m).toNat := le_stageOut_toNat 16 (by decide) _ hpos
  have h3 : 2 ^ 24 ≤ (v3 m).toNat := le_stageOut_toNat 8 (by decide) _ h4
  have h2 : 2 ^ 28 ≤ (v2 m).toNat := le_stageOut_toNat 4 (by decide) _ h3
  have h1 : 2 ^ 30 ≤ (v1 m).toNat := le_stageOut_toNat 2 (by decide) _ h2
  exact ⟨h4, h3, h2, h1, (signField_iff (v0 m)).2 (le_normWord_toNat m hpos)⟩

/-- The normalised word is the magnitude shifted by the shift count (R63). -/
theorem normWord_eq_shiftLeft (m : Word) : normWord m = m <<< (shiftCount m).toNat := by
  have hlt := (normWord m).isLt
  rw [normWord_toNat] at hlt
  rw [← BitVec.toNat_inj, normWord_toNat, BitVec.toNat_shiftLeft, Nat.shiftLeft_eq, Nat.mod_eq_of_lt hlt]

/-- Bit `k` of the shift count is the decision of stage `k` (30_encoding.md R40). -/
theorem shiftCount_getLsbD (m : Word) :
    (shiftCount m).getLsbD 4 = s4 m ∧ (shiftCount m).getLsbD 3 = s3 m ∧ (shiftCount m).getLsbD 2 = s2 m ∧
      (shiftCount m).getLsbD 1 = s1 m ∧ (shiftCount m).getLsbD 0 = s0 m := by
  simp only [shiftCount, BitVec.getLsbD_append, BitVec.getLsbD_ofBool]
  simp

/-- The shift count is 0 for the operand `I32_MIN` alone; for zero it is 31 (R63, R64). -/
theorem shiftCount_magnitude_eq_zero_iff (a : Word) : shiftCount (magnitude a) = 0#5 ↔ a = i32Min := by
  by_cases ha : a = 0#32
  · rw [ha]
    decide
  · rw [← shiftCount_eq_zero_iff a ha, ← BitVec.toNat_inj, BitVec.toNat_zero]

/-- Settles O28: the count's bits and sum are the decisions, and a shift that loses no bit and sets bit 31 is by
`clz`. -/
theorem shiftCountIsLeadingZeros : Obligations.ShiftCountIsLeadingZeros := by
  refine ⟨fun m => ?_, shiftCount_magnitude_eq_zero_iff⟩
  obtain ⟨h4, h3, h2, h1, h0⟩ := shiftCount_getLsbD m
  refine ⟨h4, h3, h2, h1, h0, shiftCount_toNat m, fun hm => ?_⟩
  exact ⟨shiftCount_eq_clz m (BitVec.toNat_pos_of_ne_zero hm), normWord_eq_shiftLeft m, normWord_toNat m⟩

/-- The addend of the merge is the exponent value times `2^23`: the shift by 23 loses no bit (R65). -/
theorem expAddend_toNat (exp : BitVec 8) : (exp.setWidth 32 <<< 23 : Word).toNat = exp.toNat * 2 ^ 23 := by
  have := exp.isLt
  rw [BitVec.toNat_shiftLeft, BitVec.toNat_setWidth, Nat.shiftLeft_eq]
  omega

/-- Settles O29: the subtraction from 157 never borrows, and the addend is `2^23` times its value. -/
theorem exponentValueForEveryShift : Obligations.ExponentValueForEveryShift := by
  intro shift
  have hsum := expValue_toNat_add shift
  have hshift := shift.isLt
  rw [expAddend_toNat]
  omega

end Sys2Proof.Machine
end

section
/-! SUPPORT. The fields of a result by the operand, and the statement that the data path gives the form by fields
(42_normalizer_packer.md R75). -/

namespace Sys2Proof.Machine

/-- The sign field of a result is the operand's sign: the sign is added above the merged word (R74, R75). -/
theorem signField_i2fRtz (a : Word) : signField (i2fRtz a) = signBit a := by
  by_cases ha : a = 0#32
  · subst ha
    decide
  · have hnorm := (normWord (magnitude a)).isLt
    have hb := (signBit a).toNat_le
    rw [Bool.eq_iff_iff, signField_iff, i2fRtz_toNat a ha, ← Bool.toNat_eq_one (b := signBit a)]
    omega

/-- The mantissa field of a nonzero operand's result, as the bits of the normalised word (R75). -/
theorem fracField_i2fRtz_eq_extractLsb' (a : Word) (ha : a ≠ 0#32) :
    fracField (i2fRtz a) = (normWord (magnitude a)).extractLsb' 8 23 := by
  rw [← BitVec.toNat_inj, fracField_i2fRtz a ha, BitVec.extractLsb'_toNat, Nat.shiftRight_eq_div_pow]

/-- Settles O37: after an evaluation `z` is the result, whose fields are the operand's sign, 158 less the shift count
and the top of the normalised word; and the shift count of a nonzero magnitude is `clz`. -/
theorem resultByFieldsRefinesTheDataPath : Obligations.ResultByFieldsRefinesTheDataPath := by
  intro a s
  obtain ⟨t, hexec, -, hz⟩ := exec_i2fRtz_ports a s
  refine ⟨t, hexec, ?_, fun ha => ?_⟩ <;> rw [hz]
  · rintro rfl
    decide
  · have hclz := shiftCount_eq_clz _ (magnitude_toNat_pos a ha)
    have hfrac := fracField_i2fRtz_eq_extractLsb' a ha
    have hexp := expField_i2fRtz a ha
    have hs := (shiftCount (magnitude a)).isLt
    obtain ⟨hlow, hhigh⟩ := expField_i2fRtz_range a ha
    refine ⟨signField_i2fRtz a, hexp, by omega, hlow, hhigh, hfrac, ?_⟩
    rw [hfrac, normWord_eq_shiftLeft, hclz]

end Sys2Proof.Machine
end

section
/-! SUPPORT. The normalised word, the aligned significand and the dropped bits, and the statements on them
(42_normalizer_packer.md R68 to R71). -/

namespace Sys2Proof.Machine

/-- The word of a power of two below `2^32`. -/
theorem ofNat_two_pow_toNat (k : Nat) (hk : k < 32) : (BitVec.ofNat 32 (2 ^ k)).toNat = 2 ^ k :=
  Nat.mod_eq_of_lt (Nat.pow_lt_pow_right (by decide) hk)

/-- The highest set bit of a power of two is at its exponent (00_scope.md R12). -/
theorem clz_two_pow (k : Nat) (hk : k < 32) : clz (BitVec.ofNat 32 (2 ^ k)) = 31 - k := by
  rw [clz, ofNat_two_pow_toNat k hk, Nat.log2_two_pow]

/-- A power of two is normalised to the word with bit 31 alone (R68). -/
theorem normWord_two_pow (k : Nat) (hk : k < 32) : normWord (BitVec.ofNat 32 (2 ^ k)) = 0x80000000#32 := by
  have hval := ofNat_two_pow_toNat k hk
  have hpos : 0 < (BitVec.ofNat 32 (2 ^ k)).toNat := by rw [hval]; exact Nat.two_pow_pos k
  have hsum : k + (31 - k) = 31 := by omega
  rw [← BitVec.toNat_inj, normWord_toNat, shiftCount_eq_clz _ hpos, clz_two_pow k hk, hval, ← pow_add, hsum]
  rfl

/-- The bits a normalised word was filled up with are zero (R68). -/
theorem normWord_getLsbD_low (m : Word) (i : Nat) (hi : i < (shiftCount m).toNat) :
    (normWord m).getLsbD i = false := by
  rw [normWord_eq_shiftLeft, BitVec.getLsbD_shiftLeft]
  simp [hi]

/-- Bit 31 of the normalised word of a nonzero magnitude is set (R68). -/
theorem normWord_getLsbD_31 (m : Word) (hm : m ≠ 0#32) : (normWord m).getLsbD 31 = true :=
  (signField_iff _).2 (le_normWord_toNat m (BitVec.toNat_pos_of_ne_zero hm))

/-- Settles O30: the ladder is a shift by the shift count that loses no bit, and the shift count of `2^k` is
`31 - k`. -/
theorem normalisedWordKeepsEveryBit : Obligations.NormalisedWordKeepsEveryBit :=
  ⟨fun m hm => ⟨normWord_getLsbD_31 m hm, normWord_eq_shiftLeft m, normWord_toNat m, normWord_getLsbD_low m⟩,
    normWord_two_pow, by decide⟩

/-- The aligned significand is the top of the normalised word below eight zeros (R69). -/
theorem mantWord_eq_append (n : Word) : mantWord n = 0x00#8 ++ n.extractLsb' 8 24 :=
  BitVec.ushiftRight_eq_extractLsb'_of_lt (by decide)

/-- Bit `i` of the aligned significand is bit `i + 8` of the normalised word (R69). -/
theorem mantWord_getLsbD (n : Word) (i : Nat) : (mantWord n).getLsbD i = n.getLsbD (8 + i) :=
  BitVec.getLsbD_ushiftRight n drop i

/-- The low bits of the aligned significand are the normalised word's from bit 8 on (R69). -/
theorem mantWord_low_bits (n : Word) : (mantWord n).extractLsb' 0 23 = n.extractLsb' 8 23 := by
  rw [← BitVec.toNat_inj, BitVec.extractLsb'_toNat, BitVec.extractLsb'_toNat, mantWord_toNat, Nat.shiftRight_zero,
    Nat.shiftRight_eq_div_pow]

/-- The aligned significand has 24 bits (R69). -/
theorem mantWord_toNat_lt (n : Word) : (mantWord n).toNat < 2 ^ 24 := by
  have := n.isLt
  rw [mantWord_toNat]
  omega

/-- The aligned significand of a nonzero magnitude is at least its implicit leading 1 (R69). -/
theorem le_mantWord_normWord_toNat (m : Word) (hm : 0 < m.toNat) : 2 ^ 23 ≤ (mantWord (normWord m)).toNat := by
  have := le_normWord_toNat m hm
  rw [mantWord_toNat]
  omega

/-- The implicit leading 1 of a nonzero magnitude's aligned significand is bit 23 (R69). -/
theorem mantWord_normWord_getLsbD_23 (m : Word) (hm : m ≠ 0#32) : (mantWord (normWord m)).getLsbD 23 = true := by
  rw [mantWord_getLsbD]
  exact normWord_getLsbD_31 m hm

/-- The normalised word of an operand is even: only `I32_MIN` is not shifted (R69). -/
theorem normWord_magnitude_even (a : Word) (ha : a ≠ 0#32) : (normWord (magnitude a)).toNat % 2 = 0 := by
  by_cases hs : (shiftCount (magnitude a)).toNat = 0
  · rw [(shiftCount_eq_zero_iff a ha).1 hs]
    decide
  · rw [normWord_toNat, Nat.mul_mod, Nat.two_pow_mod_two_eq_zero.2 (Nat.pos_of_ne_zero hs)]
    rfl

/-- Settles O31: the right shift by 8 drops `norm[7:0]`, bit 31 of a nonzero operand's normalised word is set, and its
bit 0 is clear. -/
theorem alignedSignificandIsTheTopOfTheNormalisedWord :
    Obligations.AlignedSignificandIsTheTopOfTheNormalisedWord := by
  refine ⟨fun n => ⟨mantWord_eq_append n, fun i hi _ => ?_, mantWord_getLsbD n 23, mantWord_low_bits n⟩,
    fun a ha => ?_⟩
  · rw [mantWord_getLsbD]
    exact BitVec.getLsbD_of_ge n _ (by omega)
  · have hpos := magnitude_toNat_pos a ha
    have heven := normWord_magnitude_even a ha
    have hlt := (normWord (magnitude a)).isLt
    have hm := mt (magnitude_eq_zero_iff a).1 ha
    refine ⟨?_, mantWord_normWord_getLsbD_23 _ hm, le_mantWord_normWord_toNat _ hpos,
      Nat.le_of_lt_succ (mantWord_toNat_lt _)⟩
    rw [BitVec.le_def, BitVec.toNat_ofNat]
    omega

/-- The dropped bits as a remainder (R70). -/
theorem droppedBits_toNat (a : Word) : (droppedBits a).toNat = (normWord (magnitude a)).toNat % 2 ^ 8 := by
  rw [droppedBits, BitVec.extractLsb'_toNat, Nat.shiftRight_zero]

/-- Below shift count 8 the low `8 - shift` bits of the magnitude are the ones dropped (R71). -/
theorem droppedBits_toNat_of_le (a : Word) (hs : (shiftCount (magnitude a)).toNat ≤ 8) :
    (droppedBits a).toNat = (magnitude a).toNat % 2 ^ (8 - (shiftCount (magnitude a)).toNat) *
      2 ^ (shiftCount (magnitude a)).toNat := by
  rw [droppedBits_toNat, normWord_toNat, ← Nat.mul_mod_mul_right, ← pow_add, Nat.sub_add_cancel hs]

/-- From shift count 8 on nothing is dropped: the bits shifted in are shifted out again (R71). -/
theorem droppedBits_of_ge (a : Word) (hs : 8 ≤ (shiftCount (magnitude a)).toNat) : droppedBits a = 0#8 := by
  rw [← BitVec.toNat_inj, droppedBits_toNat, normWord_toNat, BitVec.toNat_ofNat]
  exact Nat.mod_eq_zero_of_dvd ((pow_dvd_pow 2 hs).mul_left _)

/-- Below shift count 8 the kept part of the magnitude counts in units of `2^(8 - shift)` (R71). -/
theorem mantWord_normWord_toNat_of_le (m : Word) (hs : (shiftCount m).toNat ≤ 8) :
    (mantWord (normWord m)).toNat = m.toNat / 2 ^ (8 - (shiftCount m).toNat) := by
  have hpow : 2 ^ 8 = 2 ^ (8 - (shiftCount m).toNat) * 2 ^ (shiftCount m).toNat := by
    rw [← pow_add, Nat.sub_add_cancel hs]
  rw [mantWord_toNat, normWord_toNat, hpow, Nat.mul_div_mul_right _ _ (Nat.two_pow_pos _)]

/-- From shift count 8 on the whole magnitude is kept (R71). -/
theorem mantWord_normWord_toNat_of_ge (m : Word) (hs : 8 ≤ (shiftCount m).toNat) :
    (mantWord (normWord m)).toNat = m.toNat * 2 ^ ((shiftCount m).toNat - 8) := by
  have hpow : 2 ^ (shiftCount m).toNat = 2 ^ ((shiftCount m).toNat - 8) * 2 ^ 8 := by
    rw [← pow_add, Nat.sub_add_cancel hs]
  rw [mantWord_toNat, normWord_toNat, hpow, ← mul_assoc, Nat.mul_div_cancel _ (Nat.two_pow_pos 8)]

/-- A magnitude with 8 or more leading zeros fits in 24 bits (R71). -/
theorem toNat_lt_of_shiftCount_ge (m : Word) (hs : 8 ≤ (shiftCount m).toNat) : m.toNat < 2 ^ 24 := by
  have hlt := mantWord_toNat_lt (normWord m)
  rw [mantWord_normWord_toNat_of_ge m hs] at hlt
  exact (Nat.le_mul_of_pos_right _ (Nat.two_pow_pos _)).trans_lt hlt

/-- Settles O33: the right shift by 8 after a left shift by `shift` is a division by `2^(8 - shift)` below shift count
8, with the dropped bits as its remainder, and a multiplication from 8 on. -/
theorem droppedBitsByShiftCount : Obligations.DroppedBitsByShiftCount := by
  intro a ha m s
  refine ⟨?_, fun hs => ?_, fun hs => ⟨droppedBits_toNat_of_le a hs.le, ?_⟩, fun hs => ?_⟩
  · rw [sigbits, ← shiftCount_eq_clz m (magnitude_toNat_pos a ha)]
  · obtain rfl := (shiftCount_eq_zero_iff a ha).1 hs
    decide
  · rw [mantWord_normWord_toNat_of_le m hs.le]
    exact Nat.div_add_mod' _ _
  · exact ⟨droppedBits_of_ge a hs, toNat_lt_of_shiftCount_ge m hs, mantWord_normWord_toNat_of_ge m hs⟩

end Sys2Proof.Machine
end

section
/-! SUPPORT. The packer's operations and the word format by bits (42_normalizer_packer.md R69, R72, R74). -/

namespace Sys2Proof.Machine

/-- A pattern is its three fields one after the other (30_encoding.md R39). -/
theorem eq_append_fields (z : Word) : z = BitVec.ofBool (signField z) ++ expField z ++ fracField z := by
  have hsign : BitVec.ofBool (signField z) = z.extractLsb' 31 1 := by
    refine BitVec.eq_of_getLsbD_eq fun i hi => ?_
    obtain rfl : i = 0 := by omega
    simp [signField]
  have hupper : z.extractLsb' 31 1 ++ z.extractLsb' 23 8 = z.extractLsb' 23 9 :=
    BitVec.extractLsb'_append_extractLsb'_eq_extractLsb' rfl
  have hword : z.extractLsb' 23 9 ++ z.extractLsb' 0 23 = z.extractLsb' 0 32 :=
    BitVec.extractLsb'_append_extractLsb'_eq_extractLsb' rfl
  rw [hsign, expField, fracField, hupper, hword, BitVec.extractLsb'_eq_self]

/-- The exponent value as a number (41_lzd_exponent.md R65). -/
theorem expValue_toNat (shift : BitVec 5) : (expValue shift).toNat = 157 - shift.toNat :=
  Nat.eq_sub_of_add_eq (expValue_toNat_add shift)

/-- The top eight bits of the aligned significand are zero (R69). -/
theorem mantWord_top_bits (n : Word) : (mantWord n).extractLsb' 24 8 = 0#8 := by
  rw [← BitVec.toNat_inj, BitVec.extractLsb'_toNat, Nat.shiftRight_eq_div_pow,
    Nat.div_eq_of_lt (mantWord_toNat_lt n), BitVec.toNat_ofNat]

/-- Masking the implicit bit leaves the mantissa field (R72's second form). -/
theorem toNat_and_not_implicit (mant : Word) (h : mant.toNat < 2 ^ 24) :
    (mant &&& ~~~0x00800000#32).toNat = mant.toNat % 2 ^ 23 := by
  have hbit : 0x00800000#32 = BitVec.twoPow 32 23 := by decide
  apply Nat.eq_of_testBit_eq
  intro i
  rw [BitVec.testBit_toNat, Nat.testBit_mod_two_pow, hbit, BitVec.getLsbD_and, BitVec.getLsbD_not,
    BitVec.getLsbD_twoPow, ← BitVec.testBit_toNat]
  rcases lt_trichotomy i 23 with hi | rfl | hi
  · have hne : 23 ≠ i := hi.ne'
    simp [hi, hne, hi.trans (by decide : 23 < 32)]
  · simp
  · simp [hi.not_gt, Nat.testBit_eq_false_of_lt (h.trans_le (Nat.pow_le_pow_right (by decide) hi))]

/-- Where bit 31 is clear, inserting the sign puts it above the other bits (R74). -/
theorem signedWord_eq_append (packed : Word) (sign : Bool) (h : packed.toNat < 2 ^ 31) :
    signedWord packed sign = BitVec.ofBool sign ++ packed.extractLsb' 0 31 := by
  rw [← BitVec.toNat_inj, signedWord_toNat packed sign h, BitVec.toNat_append, BitVec.toNat_ofBool,
    BitVec.extractLsb'_toNat, Nat.shiftRight_zero, Nat.mod_eq_of_lt h, ← Nat.shiftLeft_add_eq_or_of_lt h,
    Nat.shiftLeft_eq, Nat.add_comm]

end Sys2Proof.Machine
end

section
/-! SUPPORT. The wires of the merge and the sign insertion in numbers (42_normalizer_packer.md R72 to R74), and the
statements on them. -/

namespace Sys2Proof.Machine

variable (a : Word)

/-- The merge takes the aligned significand and the exponent value (R72). -/
theorem signalsOf_packed : (signalsOf a).packed = packedWord (signalsOf a).mantWord (signalsOf a).exp := rfl

/-- The sign insertion takes the merged word and the operand's sign (R74). -/
theorem signalsOf_signedWord : (signalsOf a).signedWord = signedWord (signalsOf a).packed (signBit a) := rfl

/-- The exponent value is 157 less the shift count (41_lzd_exponent.md R65). -/
theorem signalsOf_exp_toNat : (signalsOf a).exp.toNat = 157 - (signalsOf a).shift.toNat := expValue_toNat _

/-- The range of the exponent value: the shift count has five bits (41_lzd_exponent.md R65). -/
theorem signalsOf_exp_toNat_range : 126 ≤ (signalsOf a).exp.toNat ∧ (signalsOf a).exp.toNat ≤ 157 := by
  have := (signalsOf a).shift.isLt
  rw [signalsOf_exp_toNat]
  omega

/-- The aligned significand has 24 bits (R69). -/
theorem signalsOf_mantWord_toNat_lt : (signalsOf a).mantWord.toNat < 2 ^ 24 := mantWord_toNat_lt _

/-- The aligned significand of a nonzero operand is at least its implicit leading 1 (R69). -/
theorem le_signalsOf_mantWord_toNat (ha : a ≠ 0#32) : 2 ^ 23 ≤ (signalsOf a).mantWord.toNat :=
  le_mantWord_normWord_toNat _ (magnitude_toNat_pos a ha)

/-- Only `I32_MIN` reaches the largest exponent value, and its significand is the smallest (R73). -/
theorem mantWord_of_exp_eq_157 (ha : a ≠ 0#32) (h : (signalsOf a).exp = 157#8) :
    (signalsOf a).mantWord = 0x00800000#32 := by
  have hexp : (signalsOf a).exp.toNat = 157 := congrArg BitVec.toNat h
  have hs : (signalsOf a).shift.toNat = 0 := by
    rw [signalsOf_exp_toNat] at hexp
    omega
  obtain rfl := (shiftCount_eq_zero_iff a ha).1 hs
  decide

/-- The merge of every operand is the unbounded sum (R73). -/
theorem packed_toNat :
    (signalsOf a).packed.toNat = (signalsOf a).mantWord.toNat + (signalsOf a).exp.toNat * 2 ^ 23 := by
  have hmant := signalsOf_mantWord_toNat_lt a
  have hexp := (signalsOf_exp_toNat_range a).2
  rw [signalsOf_packed, packedWord_toNat]
  exact Nat.mod_eq_of_lt (by omega)

/-- The merge never reaches bit 31 (R73). -/
theorem packed_toNat_lt : (signalsOf a).packed.toNat < 2 ^ 31 := by
  have hmant := signalsOf_mantWord_toNat_lt a
  have hexp := (signalsOf_exp_toNat_range a).2
  rw [packed_toNat]
  omega

/-- The range of the packed word; the largest exponent value comes with the smallest significand only (R73). -/
theorem packed_toNat_range (ha : a ≠ 0#32) :
    0x3F800000 ≤ (signalsOf a).packed.toNat ∧ (signalsOf a).packed.toNat ≤ 0x4F000000 := by
  have hle := le_signalsOf_mantWord_toNat a ha
  have hlt := signalsOf_mantWord_toNat_lt a
  obtain ⟨hlow, hhigh⟩ := signalsOf_exp_toNat_range a
  rw [packed_toNat]
  rcases hhigh.eq_or_lt with hmax | hless
  · rw [hmax, mantWord_of_exp_eq_157 a ha (BitVec.eq_of_toNat_eq hmax)]
    decide
  · omega

/-- The packed word has sign 0 (R73). -/
theorem signField_packed : signField (signalsOf a).packed = false := by
  rw [Bool.eq_false_iff, Ne, signField_iff]
  exact Nat.not_le.2 (packed_toNat_lt a)

/-- The implicit leading 1 adds 1 to the exponent value (R72, 41_lzd_exponent.md R66). -/
theorem expField_packed (ha : a ≠ 0#32) :
    (expField (signalsOf a).packed).toNat = (signalsOf a).exp.toNat + 1 := by
  have hle := le_signalsOf_mantWord_toNat a ha
  have hlt := signalsOf_mantWord_toNat_lt a
  have hexp := (signalsOf_exp_toNat_range a).2
  rw [expField_toNat, packed_toNat]
  omega

/-- The exponent field of the packed word by the shift count (R72). -/
theorem expField_packed_eq_sub_shift (ha : a ≠ 0#32) :
    (expField (signalsOf a).packed).toNat = 158 - (signalsOf a).shift.toNat := by
  have hs := (signalsOf a).shift.isLt
  rw [expField_packed a ha, signalsOf_exp_toNat]
  omega

/-- The exponent field of the packed word lies in 127 to 158 (R72, R73). -/
theorem expField_packed_range (ha : a ≠ 0#32) :
    127 ≤ (expField (signalsOf a).packed).toNat ∧ (expField (signalsOf a).packed).toNat ≤ 158 := by
  obtain ⟨hlow, hhigh⟩ := signalsOf_exp_toNat_range a
  rw [expField_packed a ha]
  omega

/-- The merge changes no bit of the mantissa field (R72). -/
theorem fracField_packed : fracField (signalsOf a).packed = (signalsOf a).mantWord.extractLsb' 0 23 := by
  rw [← BitVec.toNat_inj, fracField_toNat, packed_toNat, BitVec.extractLsb'_toNat, Nat.shiftRight_zero,
    Nat.add_mul_mod_self_right]

/-- The packed word by fields (R72's first form). -/
theorem packed_eq_append (ha : a ≠ 0#32) : (signalsOf a).packed =
    0#1 ++ BitVec.ofNat 8 (158 - (signalsOf a).shift.toNat) ++ (signalsOf a).norm.extractLsb' 8 23 := by
  have hexp : expField (signalsOf a).packed = BitVec.ofNat 8 (158 - (signalsOf a).shift.toNat) := by
    rw [← expField_packed_eq_sub_shift a ha, BitVec.ofNat_toNat, BitVec.setWidth_eq]
  have hfrac : fracField (signalsOf a).packed = (signalsOf a).norm.extractLsb' 8 23 :=
    (fracField_packed a).trans (mantWord_low_bits _)
  rw [eq_append_fields (signalsOf a).packed, signField_packed, hexp, hfrac]
  rfl

/-- The packed word as an OR with the implicit bit masked: the exponent field above a significand below `2^23` (R72's
second form). -/
theorem packed_eq_or (ha : a ≠ 0#32) : (signalsOf a).packed =
    ((signalsOf a).mantWord &&& ~~~0x00800000#32) ||| BitVec.ofNat 32 (158 - (signalsOf a).shift.toNat) <<< 23 := by
  have hlt := signalsOf_mantWord_toNat_lt a
  have hle := le_signalsOf_mantWord_toNat a ha
  have hs := (signalsOf a).shift.isLt
  have hfield : (BitVec.ofNat 32 (158 - (signalsOf a).shift.toNat) <<< 23).toNat =
      2 ^ 23 * (158 - (signalsOf a).shift.toNat) := by
    rw [BitVec.toNat_shiftLeft, BitVec.toNat_ofNat, Nat.shiftLeft_eq]
    omega
  rw [← BitVec.toNat_inj, BitVec.toNat_or, toNat_and_not_implicit _ hlt, hfield, Nat.or_comm,
    ← Nat.two_pow_add_eq_or_of_lt (Nat.mod_lt _ (by decide)), packed_toNat, signalsOf_exp_toNat]
  omega

/-- Settles O34: the significand lies in `2^23` to `2^24 - 1`, so that the sum has its implicit bit in the exponent
field and its other bits in the mantissa field; both forms of R72 are these two fields. -/
theorem mergeAddsTheImplicitBitToTheExponent : Obligations.MergeAddsTheImplicitBitToTheExponent := by
  intro a ha
  obtain ⟨hexpLow, hexpHigh⟩ := signalsOf_exp_toNat_range a
  obtain ⟨hfieldLow, hfieldHigh⟩ := expField_packed_range a ha
  exact ⟨signalsOf_packed a, signalsOf_exp_toNat a, hexpLow, hexpHigh, mantWord_top_bits _,
    mantWord_normWord_getLsbD_23 _ (mt (magnitude_eq_zero_iff a).1 ha), expField_packed a ha,
    expField_packed_eq_sub_shift a ha, hfieldLow, hfieldHigh, fracField_packed a, packed_eq_append a ha,
    packed_eq_or a ha⟩

/-- Settles O35: the sum of a 24-bit significand and an exponent value of at most 157 stays below `2^31`, and only
`I32_MIN` brings the exponent value to 157. -/
theorem mergeNeverWraps : Obligations.MergeNeverWraps := by
  intro a ha
  obtain ⟨hlow, hhigh⟩ := packed_toNat_range a ha
  obtain ⟨hfieldLow, hfieldHigh⟩ := expField_packed_range a ha
  exact ⟨packed_toNat a, hlow, hhigh, signField_packed a, hfieldLow, hfieldHigh,
    classify_normal _ (by omega) (by omega), signField_packed a, mantWord_of_exp_eq_157 a ha⟩

/-- Settles O36: the packed word of every operand has bit 31 clear, so the OR puts the sign above its other bits. -/
theorem signInsertionSetsOnlyTheTopBit : Obligations.SignInsertionSetsOnlyTheTopBit := by
  intro a
  rw [signalsOf_signedWord]
  refine ⟨signedWord_eq_append _ _ (packed_toNat_lt a), fun h => ?_, fun h => ?_⟩
  · rw [h, signedWord_false]
  · rw [h, signedWord_true]

end Sys2Proof.Machine
end

section
/-! SUPPORT. The exponent field by the number of significant bits, and the statement that it steps at powers of two
(42_normalizer_packer.md R76). -/

namespace Sys2Proof.Machine

/-- The exponent field is 126 more than the number of significant bits (R76). -/
theorem expField_i2fRtz_eq_sigbits (a : Word) (ha : a ≠ 0#32) :
    (expField (i2fRtz a)).toNat = 126 + sigbits (magnitude a) := by
  have hs := (shiftCount (magnitude a)).isLt
  rw [expField_i2fRtz a ha, sigbits, ← shiftCount_eq_clz _ (magnitude_toNat_pos a ha)]
  omega

/-- A positive operand is its own magnitude (40_converter_top.md R50). -/
theorem magnitude_of_pos (a : Word) (h : 0 < a.toInt) : magnitude a = a := by
  apply magnitude_of_signBit_false
  rw [Bool.eq_false_iff, Ne, signBit_iff_neg]
  exact h.le.not_gt

/-- The exponent field of a positive operand is that of its own significant bits (R76). -/
theorem expField_i2fRtz_of_pos (a : Word) (h : 0 < a.toInt) : (expField (i2fRtz a)).toNat = 126 + sigbits a := by
  have ha : a ≠ 0#32 := mt (toInt_eq_zero_iff a).2 h.ne'
  rw [expField_i2fRtz_eq_sigbits a ha, magnitude_of_pos a h]

/-- The words with highest set bit `k` have `k + 1` significant bits (00_scope.md R12). -/
theorem sigbits_eq_of_range (m : Word) (k : Nat) (hle : 2 ^ k ≤ m.toNat) (hlt : m.toNat < 2 ^ (k + 1))
    (hk : k ≤ 31) : sigbits m = k + 1 := by
  have hpos := (Nat.two_pow_pos k).trans_le hle
  rw [sigbits, clz, (Nat.log2_eq_iff hpos.ne').2 ⟨hle, hlt⟩]
  omega

/-- Between two powers of two the exponent field is constant (R76). -/
theorem expField_i2fRtz_of_range (n k : Nat) (hle : 2 ^ k ≤ n) (hlt : n < 2 ^ (k + 1)) (hk : k ≤ 30) :
    (expField (i2fRtz (BitVec.ofNat 32 n))).toNat = 127 + k := by
  have hn : n < 2 ^ 31 := hlt.trans_le (Nat.pow_le_pow_right (by decide) (Nat.succ_le_succ hk))
  have hpos : 0 < n := (Nat.two_pow_pos k).trans_le hle
  have hval : (BitVec.ofNat 32 n).toNat = n := Nat.mod_eq_of_lt (hn.trans (by decide))
  have hint : 0 < (BitVec.ofNat 32 n).toInt := by
    rw [BitVec.toInt_eq_toNat_of_lt (by omega), hval]
    exact_mod_cast hpos
  rw [expField_i2fRtz_of_pos _ hint, sigbits_eq_of_range _ k (by rwa [hval]) (by rwa [hval]) (by omega)]
  omega

/-- Settles O38: the exponent field counts the significant bits, of which `2^k - 1` has `k` and `2^k` has `k + 1`. -/
theorem exponentFieldStepsAtPowersOfTwo : Obligations.ExponentFieldStepsAtPowersOfTwo := by
  refine ⟨expField_i2fRtz_eq_sigbits, fun a b ha hab hsig => ?_, fun k hk1 hk30 => ⟨?_, ?_⟩⟩
  · rw [← BitVec.toNat_inj, expField_i2fRtz_of_pos a ha, expField_i2fRtz_of_pos b (ha.trans hab), hsig]
  · obtain ⟨j, rfl⟩ : ∃ j, k = j + 1 := ⟨_, (Nat.sub_add_cancel hk1).symm⟩
    have hpow : 2 ^ (j + 1) = 2 * 2 ^ j := pow_succ' 2 j
    have hpos := Nat.two_pow_pos j
    rw [expField_i2fRtz_of_range _ j (by omega) (by omega) (by omega)]
    omega
  · exact expField_i2fRtz_of_range _ k le_rfl (Nat.pow_lt_pow_right (by decide) k.lt_succ_self) hk30

end Sys2Proof.Machine
end

section
/-! SUPPORT. What follows from the fields of a result and the evaluation alone, and the statements on the state, the
sign and the pattern of zero (43_numeric_laws.md R86, R89, R92). -/

namespace Sys2Proof.Machine

/-- Settles O15: every evaluation puts the result on `z`, whatever the state it starts from. -/
theorem resultDependsOnTheOperandAlone : Obligations.ResultDependsOnTheOperandAlone := by
  intro a s s'
  obtain ⟨t, hexec, -, hz⟩ := exec_i2fRtz_ports a s
  obtain ⟨t', hexec', -, hz'⟩ := exec_i2fRtz_ports a s'
  obtain ⟨u, hrepeat, -, hu⟩ := exec_i2fRtz_ports a t
  exact ⟨t, t', u, hexec, hexec', hz'.trans hz.symm, hrepeat, hu.trans hz.symm⟩

/-- Settles O46: after an evaluation `z` is the result, whose sign field is the operand's sign. -/
theorem resultSignIsOperandSign : Obligations.ResultSignIsOperandSign := by
  intro a s
  obtain ⟨t, hexec, -, hz⟩ := exec_i2fRtz_ports a s
  have hsign : t.z.getLsbD 31 = signBit a := hz ▸ signField_i2fRtz a
  exact ⟨t, hexec, hsign, hsign ▸ signBit_iff_neg a⟩

/-- No result is negative zero: each is positive zero or normal (R86). -/
theorem i2fRtz_ne_negZero (a : Word) : i2fRtz a ≠ 0x80000000#32 := by
  intro h
  have hclass := classify_i2fRtz a
  rw [h] at hclass
  exact absurd hclass (by decide)

/-- Settles O42: zero alone gives the all-zero pattern, and negative zero is in neither class a result has. -/
theorem onlyZeroGivesZero : Obligations.OnlyZeroGivesZero :=
  ⟨i2fRtz_zero, fun a => ⟨(i2fRtz_eq_zero_iff a).1, i2fRtz_ne_negZero a⟩⟩

end Sys2Proof.Machine
end

section
/-! SUPPORT. The operand and its negation, and the statement on odd symmetry (43_numeric_laws.md R90). -/

namespace Sys2Proof.Machine

/-- Negation flips the sign of every operand but 0 and `I32_MIN` (R90). -/
theorem signBit_neg (a : Word) (ha : a ≠ 0#32) (hmin : a ≠ i32Min) : signBit (-a) = !signBit a := by
  have hint : a ≠ BitVec.intMin 32 := hmin
  rw [signBit_eq_msb, signBit_eq_msb, BitVec.msb_neg, bne_iff_ne.2 ha, bne_iff_ne.2 hint, Bool.true_and,
    Bool.true_xor]

/-- An operand and its negation have the same magnitude (R90). -/
theorem magnitude_neg (a : Word) : magnitude (-a) = magnitude a := by
  by_cases hmin : a = i32Min
  · rw [hmin]
    decide
  · rw [← BitVec.toNat_inj, magnitude_toNat, magnitude_toNat, BitVec.toInt_neg_of_ne_intMin hmin, Int.natAbs_neg]

/-- Where bit 31 is clear, inserting the other sign inverts that bit alone (R90, 42_normalizer_packer.md R74). -/
theorem signedWord_not (packed : Word) (sign : Bool) (h : packed.toNat < 2 ^ 31) :
    signedWord packed (!sign) = signedWord packed sign ^^^ 0x80000000#32 := by
  have hbits : 0x80000000#32 = BitVec.ofBool true ++ 0#31 := by decide
  rw [signedWord_eq_append _ _ h, signedWord_eq_append _ _ h, hbits, BitVec.xor_append, BitVec.xor_zero]
  cases sign <;> rfl

/-- Settles O47: all wires before the sign insertion are functions of the magnitude, which is the same; the sign is the
other one. -/
theorem negationFlipsOnlyTheSign : Obligations.NegationFlipsOnlyTheSign := by
  refine ⟨fun a ha hmin => ?_, by decide, i2fRtz_zero, by decide, i2fRtz_i32Min⟩
  have hm := magnitude_neg a
  have hsign := signBit_neg a ha hmin
  have hne : -a ≠ 0#32 := mt BitVec.neg_eq_zero_iff.1 ha
  have hpacked : (signalsOf (-a)).packed = (signalsOf a).packed :=
    congrArg (fun m => packedWord (mantWord (normWord m)) (expValue (shiftCount m))) hm
  rw [BitVec.zero_sub]
  refine ⟨?_, hsign, hm, congrArg shiftCount hm, congrArg normWord hm,
    congrArg (fun m => expValue (shiftCount m)) hm, hpacked⟩
  rw [i2fRtz_eq_ite, if_neg hne, i2fRtz_eq_ite a, if_neg ha, signalsOf_signedWord, signalsOf_signedWord, hpacked,
    hsign, signedWord_not _ _ (packed_toNat_lt a)]

end Sys2Proof.Machine
end

section
/-! SUPPORT. The kept part of a magnitude: its top 24 significant bits in place (00_scope.md R12's `trunc24` without
the sign). It is the largest number of 24 significant bits up to the magnitude. -/

namespace Sys2Proof.Machine

/-- The magnitude `n` with every bit below its top 24 significant bits cleared. -/
def keptPart (n : Nat) : Nat := n / 2 ^ keptExponent n * 2 ^ keptExponent n

/-- A magnitude of at most 24 bits is kept whole. -/
theorem keptPart_of_keptExponent_eq_zero {n : Nat} (h : keptExponent n = 0) : keptPart n = n := by
  rw [keptPart, h, pow_zero, Nat.div_one, mul_one]

/-- Below `2^24` no bit is dropped. -/
theorem keptExponent_of_lt {n : Nat} (h : n < 2 ^ 24) : keptExponent n = 0 := by
  by_cases h0 : n = 0
  · rw [h0]
    decide
  · have := (Nat.log2_lt h0).2 h
    rw [keptExponent]
    omega

/-- The kept part is at most the magnitude. -/
theorem keptPart_le (n : Nat) : keptPart n ≤ n := Nat.div_mul_le_self _ _

/-- What is not kept is the remainder by the last kept bit's weight. -/
theorem sub_keptPart (n : Nat) : n - keptPart n = n % 2 ^ keptExponent n := Nat.mod_eq_sub_div_mul.symm

/-- The kept bits are at most 24. -/
theorem div_two_pow_keptExponent_lt (n : Nat) : n / 2 ^ keptExponent n < 2 ^ 24 := by
  rw [Nat.div_lt_iff_lt_mul (Nat.two_pow_pos _), ← pow_add]
  refine Nat.lt_log2_self.trans_le (Nat.pow_le_pow_right (by decide) ?_)
  rw [keptExponent]
  omega

/-- Where bits are dropped the kept part has its 24 bits in use: it reaches the highest set bit of the magnitude. -/
theorem two_pow_le_keptPart (n : Nat) (h : keptExponent n ≠ 0) : 2 ^ 23 * 2 ^ keptExponent n ≤ keptPart n := by
  have hlog : 23 + keptExponent n = Nat.log2 n := by
    rw [keptExponent] at h ⊢
    omega
  have hn : n ≠ 0 := by
    rintro rfl
    exact h (by decide)
  refine Nat.mul_le_mul_right _ ((Nat.le_div_iff_mul_le (Nat.two_pow_pos _)).2 ?_)
  rw [← pow_add, hlog]
  exact Nat.log2_self_le hn

/-- No number of 24 significant bits lies between the kept part and the magnitude: one with its last bit at or above
the last kept bit is a multiple of that bit's weight, and one further down is below the kept part's highest bit. -/
theorem le_keptPart {n c : Nat} {e : ℤ} (hc : c < 2 ^ 24) (h : (c : ℚ) * 2 ^ e ≤ n) : (c : ℚ) * 2 ^ e ≤ keptPart n := by
  by_cases hk0 : keptExponent n = 0
  · rwa [keptPart_of_keptExponent_eq_zero hk0]
  rcases le_or_gt (keptExponent n : ℤ) e with hle | hlt
  · obtain ⟨j, rfl⟩ := Int.le.dest hle
    have hsplit : (c : ℚ) * 2 ^ ((keptExponent n : ℤ) + j) = (c * 2 ^ j * 2 ^ keptExponent n : Nat) := by
      rw [zpow_add₀ two_ne_zero]
      push_cast
      rw [zpow_natCast, zpow_natCast]
      ring
    rw [hsplit, Nat.cast_le] at h ⊢
    exact Nat.mul_le_mul_right _ ((Nat.le_div_iff_mul_le (Nat.two_pow_pos _)).2 h)
  · calc (c : ℚ) * 2 ^ e ≤ 2 ^ 24 * 2 ^ e := by gcongr; exact_mod_cast hc.le
      _ = 2 ^ 23 * 2 ^ (e + 1) := by rw [zpow_add_one₀ two_ne_zero]; ring
      _ ≤ 2 ^ 23 * 2 ^ (keptExponent n : ℤ) := by gcongr; exacts [one_le_two, hlt]
      _ = (2 ^ 23 * 2 ^ keptExponent n : Nat) := by rw [zpow_natCast]; norm_cast
      _ ≤ keptPart n := Nat.cast_le.2 (two_pow_le_keptPart n hk0)

/-- A larger magnitude has no smaller kept part (43_numeric_laws.md R93). -/
theorem keptPart_mono {m n : Nat} (h : m ≤ n) : keptPart m ≤ keptPart n := by
  have hval : ((m / 2 ^ keptExponent m : Nat) : ℚ) * 2 ^ (keptExponent m : ℤ) = keptPart m := by
    rw [keptPart, zpow_natCast]
    push_cast
    rfl
  have hle : (keptPart m : ℚ) ≤ n := Nat.cast_le.2 ((keptPart_le m).trans h)
  rw [← hval] at hle
  have := le_keptPart (div_two_pow_keptExponent_lt m) hle
  rwa [hval, Nat.cast_le] at this

/-- `trunc24` is the kept part of the magnitude with the sign, below `2^24` too. -/
theorem trunc24_eq_sign_mul (x : ℤ) : trunc24 x = x.sign * keptPart x.natAbs := by
  rw [trunc24]
  split_ifs with h
  · rw [keptPart_of_keptExponent_eq_zero (keptExponent_of_lt h), Int.sign_mul_natAbs]
  · rfl

/-- The magnitude of `trunc24`. -/
theorem trunc24_natAbs (x : ℤ) : (trunc24 x).natAbs = keptPart x.natAbs := by
  by_cases hx : x = 0
  · rw [hx]
    decide
  · rw [trunc24_eq_sign_mul, Int.natAbs_mul, Int.natAbs_sign_of_ne_zero hx, one_mul, Int.natAbs_natCast]

/-- `trunc24` of a nonnegative number. -/
theorem trunc24_natCast (n : Nat) : trunc24 n = keptPart n := by
  by_cases hn : n = 0
  · rw [hn]
    decide
  · rw [trunc24_eq_sign_mul, Int.sign_natCast_of_ne_zero hn, one_mul, Int.natAbs_natCast]

/-- `trunc24` is odd. -/
theorem trunc24_neg (x : ℤ) : trunc24 (-x) = -trunc24 x := by
  rw [trunc24_eq_sign_mul, trunc24_eq_sign_mul, Int.sign_neg, Int.natAbs_neg, neg_mul]

/-- `trunc24` keeps the sign (43_numeric_laws.md R84). -/
theorem trunc24_mul_self_nonneg (x : ℤ) : 0 ≤ trunc24 x * x := by
  rw [trunc24_eq_sign_mul, mul_right_comm, Int.sign_mul_self_eq_natAbs]
  positivity

/-- `trunc24` is monotone: it is so on the magnitudes, and odd (43_numeric_laws.md R93). -/
theorem trunc24_mono {x y : ℤ} (h : x ≤ y) : trunc24 x ≤ trunc24 y := by
  obtain ⟨m, rfl | rfl⟩ := x.eq_nat_or_neg <;> obtain ⟨n, rfl | rfl⟩ := y.eq_nat_or_neg <;>
    simp only [trunc24_neg, trunc24_natCast]
  · exact Nat.cast_le.2 (keptPart_mono (by omega))
  · have := keptPart_le m
    have := keptPart_le n
    omega
  · omega
  · exact neg_le_neg (Nat.cast_le.2 (keptPart_mono (by omega)))

end Sys2Proof.Machine
end

section
/-! SUPPORT. The kept part by the shift count, the value of a result, and the value law (43_numeric_laws.md R84). -/

namespace Sys2Proof.Machine

/-- The kept bits end at bit `8 - shift`, or at bit 0 from shift count 8 on (42_normalizer_packer.md R71). -/
theorem keptExponent_magnitude (a : Word) : keptExponent (magnitude a).toNat = 8 - (shiftCount (magnitude a)).toNat := by
  by_cases ha : a = 0#32
  · rw [ha]
    decide
  · have hpos := magnitude_toNat_pos a ha
    have hlog : Nat.log2 (magnitude a).toNat < 32 := (Nat.log2_lt hpos.ne').2 (magnitude a).isLt
    rw [keptExponent, shiftCount_eq_clz _ hpos, clz]
    omega

/-- What `trunc24` takes from an operand is the low bits of its magnitude that the block drops (R84). -/
theorem truncation_loss (a : Word) : a.toInt.natAbs - (trunc24 a.toInt).natAbs =
    (magnitude a).toNat % 2 ^ (8 - (shiftCount (magnitude a)).toNat) := by
  rw [trunc24_natAbs, sub_keptPart, ← magnitude_toNat, keptExponent_magnitude]

/-- The significand at its place in the normalised word is the kept part, normalised. -/
theorem mantWord_mul_two_pow (a : Word) : (mantWord (normWord (magnitude a))).toNat * 2 ^ 8 =
    keptPart (magnitude a).toNat * 2 ^ (shiftCount (magnitude a)).toNat := by
  rcases Nat.le_total (shiftCount (magnitude a)).toNat 8 with hs | hs
  · rw [mantWord_normWord_toNat_of_le _ hs, keptPart, keptExponent_magnitude, mul_assoc, ← pow_add,
      Nat.sub_add_cancel hs]
  · have hk : keptExponent (magnitude a).toNat = 0 := by rw [keptExponent_magnitude, Nat.sub_eq_zero_of_le hs]
    rw [mantWord_normWord_toNat_of_ge _ hs, keptPart_of_keptExponent_eq_zero hk, mul_assoc, ← pow_add,
      Nat.sub_add_cancel hs]

/-- The sign of a nonzero operand as a power of -1. -/
theorem toInt_sign (a : Word) (ha : a ≠ 0#32) : (a.toInt.sign : ℚ) = (-1) ^ (signBit a).toNat := by
  rcases lt_or_gt_of_ne (mt (toInt_eq_zero_iff a).1 ha) with hneg | hpos
  · rw [Int.sign_eq_neg_one_of_neg hneg, (signBit_iff_neg a).2 hneg]
    simp
  · have hsign : signBit a = false := Bool.eq_false_iff.2 (mt (signBit_iff_neg a).1 hpos.not_gt)
    rw [Int.sign_eq_one_of_pos hpos, hsign]
    simp

/-- The number that exponent field and mantissa field of a nonzero operand's result give is the kept part. -/
theorem expField_fracField_value (a : Word) (ha : a ≠ 0#32) :
    (2 : ℚ) ^ (((expField (i2fRtz a)).toNat : ℤ) - 127) * (1 + (fracField (i2fRtz a)).toNat / 2 ^ 23) =
      keptPart (magnitude a).toNat := by
  have hs := (shiftCount (magnitude a)).isLt
  have hle := le_mantWord_normWord_toNat _ (magnitude_toNat_pos a ha)
  have hlt := mantWord_toNat_lt (normWord (magnitude a))
  have hmul : ((mantWord (normWord (magnitude a))).toNat : ℚ) * 2 ^ 8 =
      keptPart (magnitude a).toNat * 2 ^ (shiftCount (magnitude a)).toNat := by
    exact_mod_cast mantWord_mul_two_pow a
  have hexp : ((expField (i2fRtz a)).toNat : ℤ) - 127 = 31 - (shiftCount (magnitude a)).toNat := by
    rw [expField_i2fRtz a ha]
    omega
  have hfrac : ((fracField (i2fRtz a)).toNat : ℚ) = (mantWord (normWord (magnitude a))).toNat - 2 ^ 23 := by
    rw [fracField_i2fRtz a ha, ← mantWord_toNat, eq_sub_iff_add_eq]
    norm_cast
    omega
  rw [hexp, hfrac, zpow_sub₀ two_ne_zero, zpow_natCast, div_mul_eq_mul_div, div_eq_iff (by positivity), ← hmul]
  ring

/-- The value law: the result stands for the operand truncated toward zero (R84). -/
theorem fp32Value_i2fRtz (a : Word) : fp32Value (i2fRtz a) = some (trunc24 a.toInt : ℚ) := by
  by_cases ha : a = 0#32
  · subst ha
    rw [i2fRtz_zero, fp32Value_zero]
    rfl
  · obtain ⟨hlow, hhigh⟩ := expField_i2fRtz_range a ha
    rw [fp32Value_of_fields _ _ _ _ (signField_i2fRtz a) rfl rfl (by omega) (by omega), mul_assoc,
      expField_fracField_value a ha, trunc24_eq_sign_mul, ← magnitude_toNat]
    push_cast
    rw [toInt_sign a ha]

/-- A pattern's value is 0 or has 24 significant bits (00_scope.md R12). -/
theorem abs_of_representable {q : ℚ} (h : Representable q) : ∃ (c : Nat) (e : ℤ), c < 2 ^ 24 ∧ |q| = c * 2 ^ e := by
  obtain ⟨z, hz⟩ := h
  rw [fp32Value] at hz
  split_ifs at hz with h0 he
  · obtain rfl := Option.some.inj hz
    exact ⟨0, 0, by decide, by simp⟩
  · obtain rfl := Option.some.inj hz
    have hf := (fracField z).isLt
    refine ⟨2 ^ 23 + (fracField z).toNat, ((expField z).toNat : ℤ) - 127 - 23, by omega, ?_⟩
    have hpos : (0 : ℚ) ≤ 1 + (fracField z).toNat / 2 ^ 23 := by positivity
    rw [abs_mul, abs_mul, abs_neg_one_pow, abs_of_nonneg hpos, abs_of_nonneg (by positivity), one_mul,
      zpow_sub₀ two_ne_zero (_ - _)]
    push_cast
    ring

/-- `trunc24` is the representable number of largest magnitude up to the given one (R84). -/
theorem abs_le_abs_trunc24 {q : ℚ} {x : ℤ} (hq : Representable q) (h : |q| ≤ |(x : ℚ)|) :
    |q| ≤ |(trunc24 x : ℚ)| := by
  obtain ⟨c, e, hc, habs⟩ := abs_of_representable hq
  rw [habs, ← Int.cast_abs, Int.abs_eq_natAbs, Int.cast_natCast] at h ⊢
  rw [trunc24_natAbs]
  exact le_keptPart hc h

/-- Only `I32_MIN` has shift count 0 (R63). -/
theorem shiftCount_magnitude_toNat_pos (a : Word) (hmin : a ≠ i32Min) : 0 < (shiftCount (magnitude a)).toNat :=
  BitVec.toNat_pos_of_ne_zero (mt (shiftCount_magnitude_eq_zero_iff a).1 hmin)

/-- The loss is at most 127: `I32_MIN` loses nothing, and every other operand drops at most seven bits (R84). -/
theorem truncation_loss_le (a : Word) : (magnitude a).toNat % 2 ^ (8 - (shiftCount (magnitude a)).toNat) ≤ 127 := by
  by_cases hmin : a = i32Min
  · rw [hmin]
    decide
  · have hs := shiftCount_magnitude_toNat_pos a hmin
    have hpow : 2 ^ (8 - (shiftCount (magnitude a)).toNat) ≤ 2 ^ 7 := Nat.pow_le_pow_right (by decide) (by omega)
    exact Nat.le_of_lt_succ ((Nat.mod_lt _ (Nat.two_pow_pos _)).trans_le hpow)

/-- The loss is 127 exactly where seven bits are dropped, all of them set (R84). -/
theorem truncation_loss_eq_127_iff (a : Word) :
    (magnitude a).toNat % 2 ^ (8 - (shiftCount (magnitude a)).toNat) = 127 ↔
      (shiftCount (magnitude a)).toNat = 1 ∧ (magnitude a).toNat % 2 ^ 7 = 0x7F := by
  constructor
  · intro h
    have hmin : a ≠ i32Min := by
      rintro rfl
      exact absurd h (by decide)
    have hpow : 2 ^ 7 ≤ 2 ^ (8 - (shiftCount (magnitude a)).toNat) := by
      have := Nat.mod_lt (magnitude a).toNat (Nat.two_pow_pos (8 - (shiftCount (magnitude a)).toNat))
      rwa [h] at this
    have hle := (Nat.pow_le_pow_iff_right (by decide)).1 hpow
    have hpos := shiftCount_magnitude_toNat_pos a hmin
    have hs : (shiftCount (magnitude a)).toNat = 1 := by omega
    exact ⟨hs, by rwa [hs] at h⟩
  · rintro ⟨hs, h⟩
    rwa [hs]

/-- The positive operands with shift count 1 and the low seven bits set run from `0x4000007F` to `I32_MAX` (R84). -/
theorem range_of_shiftCount_one (a : Word) (hpos : 0 < a.toInt) (hs : (shiftCount (magnitude a)).toNat = 1)
    (hlow : (magnitude a).toNat % 2 ^ 7 = 0x7F) : 0x4000007F ≤ a.toNat ∧ a.toNat ≤ i32Max.toNat := by
  have ha : a ≠ 0#32 := mt (toInt_eq_zero_iff a).2 hpos.ne'
  have hnorm := normWord_toNat (magnitude a)
  have hle := le_normWord_toNat _ (magnitude_toNat_pos a ha)
  have hlt := (normWord (magnitude a)).isLt
  have hmax : i32Max.toNat = 2 ^ 31 - 1 := by decide
  rw [hs, magnitude_of_pos a hpos] at hnorm
  rw [magnitude_of_pos a hpos] at hle hlt hlow
  omega

/-- Settles O39: the fields of the result give the kept part of the magnitude, than which no number of 24 significant
bits lies further out; the loss is the magnitude modulo `2^(8 - shift)`. -/
theorem resultIsTheOperandTruncated : Obligations.ResultIsTheOperandTruncated := by
  intro a m s loss
  have hloss : loss = m.toNat % 2 ^ (8 - s) := truncation_loss a
  have hiff : loss = 127 ↔ s = 1 ∧ m.toNat % 2 ^ 7 = 0x7F := hloss ▸ truncation_loss_eq_127_iff a
  refine ⟨fp32Value_i2fRtz a, fun q hq => abs_le_abs_trunc24 hq, trunc24_mul_self_nonneg _, ?_,
    hloss ▸ truncation_loss_le a, fun _ => ⟨hloss, hloss ▸ Nat.mod_lt _ (Nat.two_pow_pos _)⟩, hiff,
    fun h hpos => ?_, fun h => ?_⟩
  · rw [trunc24_natAbs]
    exact keptPart_le _
  · obtain ⟨hs, hlow⟩ := hiff.1 h
    exact range_of_shiftCount_one a hpos hs hlow
  · rw [hiff]
    rcases h with rfl | rfl <;> decide

end Sys2Proof.Machine
end

section
/-! SUPPORT. What follows from the value law, and the statements on the range and the order of the results
(43_numeric_laws.md R87, R93). -/

namespace Sys2Proof.Machine

/-- The value of a nonzero operand's result has magnitude 1 to `2^31` (R87). -/
theorem abs_trunc24_toInt_range (a : Word) (ha : a ≠ 0#32) :
    1 ≤ |(trunc24 a.toInt : ℚ)| ∧ |(trunc24 a.toInt : ℚ)| ≤ 2 ^ 31 := by
  have hlow : keptPart 1 ≤ keptPart a.toInt.natAbs := keptPart_mono (magnitude_toNat a ▸ magnitude_toNat_pos a ha)
  have hhigh : keptPart a.toInt.natAbs ≤ 2 ^ 31 := (keptPart_le _).trans (magnitude_toNat a ▸ magnitude_toNat_le a)
  rw [← Int.cast_abs, Int.abs_eq_natAbs, Int.cast_natCast, trunc24_natAbs]
  exact ⟨Nat.one_le_cast.2 hlow, by exact_mod_cast hhigh⟩

/-- Settles O45: a nonzero operand's result has exponent field 127 to 158, and by the value law it stands for the
truncated operand. -/
theorem resultsAreZeroOrNormal : Obligations.ResultsAreZeroOrNormal := by
  refine fun a => ⟨fun ha => ha ▸ i2fRtz_zero, fun ha => ?_⟩
  obtain ⟨hlow, hhigh⟩ := expField_i2fRtz_range a ha
  exact ⟨classify_normal _ (by omega) (by omega), hlow, hhigh, _, fp32Value_i2fRtz a, abs_trunc24_toInt_range a ha⟩

/-- A larger magnitude is shifted no further (R63). -/
theorem shiftCount_anti {m n : Word} (hm : 0 < m.toNat) (h : m.toNat ≤ n.toNat) :
    (shiftCount n).toNat ≤ (shiftCount m).toNat := by
  rw [shiftCount_eq_clz m hm, shiftCount_eq_clz n (hm.trans_le h), clz, clz, Nat.log2_eq_log_two, Nat.log2_eq_log_two]
  exact Nat.sub_le_sub_left (Nat.log_mono_right h) 31

/-- Among operands of one sign the pattern grows with the magnitude: with the same shift count by the significand, with
a smaller one by the exponent (R93). -/
theorem i2fRtz_toNat_mono {a b : Word} (hsign : signBit a = signBit b)
    (h : (magnitude a).toNat ≤ (magnitude b).toNat) (ha : a ≠ 0#32) : (i2fRtz a).toNat ≤ (i2fRtz b).toNat := by
  have hpos := magnitude_toNat_pos a ha
  have hb : b ≠ 0#32 := by
    rintro rfl
    exact absurd (hpos.trans_le h) (by decide)
  have hshift := shiftCount_anti hpos h
  rw [i2fRtz_toNat a ha, i2fRtz_toNat b hb, hsign]
  rcases hshift.eq_or_lt with heq | hlt
  · have hnorm : (normWord (magnitude a)).toNat ≤ (normWord (magnitude b)).toNat := by
      rw [normWord_toNat, normWord_toNat, heq]
      exact Nat.mul_le_mul_right _ h
    omega
  · have hlta := (normWord (magnitude a)).isLt
    have hleb := le_normWord_toNat _ (magnitude_toNat_pos b hb)
    have hs := (shiftCount (magnitude a)).isLt
    omega

/-- Settles O49: the values by the value law and `trunc24`'s monotonicity, the patterns by that of the merge, with the
magnitude growing or falling as the sign says. -/
theorem conversionIsMonotone : Obligations.ConversionIsMonotone := by
  intro a b hab
  refine ⟨⟨_, _, fp32Value_i2fRtz a, fp32Value_i2fRtz b, Int.cast_le.2 (trunc24_mono hab)⟩, fun h => ?_, fun h => ?_⟩
  · by_cases ha : a = 0#32
    · simp [ha]
    · have hsign : signBit a = signBit b := by
        rw [Bool.eq_iff_iff, signBit_iff_neg, signBit_iff_neg]
        omega
      exact i2fRtz_toNat_mono hsign (by rw [magnitude_toNat, magnitude_toNat]; omega) ha
  · have hsign : signBit b = signBit a := by
      rw [Bool.eq_iff_iff, signBit_iff_neg, signBit_iff_neg]
      omega
    have hb : b ≠ 0#32 := mt (toInt_eq_zero_iff b).2 h.ne
    exact i2fRtz_toNat_mono hsign (by rw [magnitude_toNat, magnitude_toNat]; omega) hb

end Sys2Proof.Machine
end

section
/-! SUPPORT. What a step can answer (70_reset_and_hazards.md R112), and the statement that no step faults or refuses
(60_exceptions.md R95). -/

namespace Sys2Proof.Machine

/-- A step on the next operand is one evaluation of it, on the state without it (R112). -/
theorem step_of_nextOperand_some {s rest : State} {w : Word} (h : s.nextOperand = some (w, rest)) :
    step s = .next (rest.present w).settle.observe := by
  simp only [step, h]
  exact exec_i2fRtz w rest

/-- Without a further operand a step holds the ports (log entry 3). -/
theorem step_of_nextOperand_none {s : State} (h : s.nextOperand = none) : step s = .next s.hold := by
  simp only [step, h]

/-- All that a step can answer: it holds the ports when no operand is left, and otherwise evaluates the first one. -/
theorem step_cases (s : State) :
    (s.operands = [] ∧ step s = .next s.hold) ∨
      ∃ w rest, s.operands = w :: rest ∧
        step s = .next (({ s with operands := rest } : State).present w).settle.observe := by
  obtain ⟨hnil, hnone⟩ | ⟨w, rest, hcons, hsome⟩ := s.nextOperand_cases
  · exact .inl ⟨hnil, step_of_nextOperand_none hnone⟩
  · exact .inr ⟨w, rest, hcons, step_of_nextOperand_some hsome⟩

/-- Settles O3: the one instruction is an evaluation, a step is an evaluation or a hold, and `Fault` has no
constructor. -/
theorem noStepFaultsOrRefuses : Obligations.NoStepFaultsOrRefuses := by
  refine ⟨fun | .i2fRtz a, s => ⟨_, exec_i2fRtz a s⟩, fun s => ?_, ⟨fun f => nomatch f⟩⟩
  obtain ⟨-, hhold⟩ | ⟨w, rest, -, heval⟩ := step_cases s
  · exact ⟨_, hhold⟩
  · exact ⟨_, heval⟩

end Sys2Proof.Machine
end

section
/-! SUPPORT. When a conversion is exact, and the statement that this is where nothing is dropped (43_numeric_laws.md
R85). -/

namespace Sys2Proof.Machine

/-- A magnitude is kept whole exactly when it is a multiple of the last kept bit's weight. -/
theorem keptPart_eq_self_iff (n : Nat) : keptPart n = n ↔ 2 ^ keptExponent n ∣ n :=
  (Nat.dvd_iff_div_mul_eq _ _).symm

/-- The conversion is exact exactly when the magnitude is kept whole (R85). -/
theorem fp32Value_eq_toInt_iff (a : Word) :
    fp32Value (i2fRtz a) = some (a.toInt : ℚ) ↔ keptPart a.toInt.natAbs = a.toInt.natAbs := by
  rw [fp32Value_i2fRtz, Option.some_inj, Int.cast_inj]
  constructor
  · intro h
    rw [← trunc24_natAbs, h]
  · intro h
    rw [trunc24_eq_sign_mul, h, Int.sign_mul_natAbs]

/-- The normalised word is the kept part, normalised, and the dropped bits below it (R70). -/
theorem normWord_eq_kept_add_dropped (a : Word) : (magnitude a).toNat * 2 ^ (shiftCount (magnitude a)).toNat =
    keptPart (magnitude a).toNat * 2 ^ (shiftCount (magnitude a)).toNat + (droppedBits a).toNat := by
  rw [← mantWord_mul_two_pow, ← normWord_toNat, mantWord_toNat, droppedBits_toNat]
  exact (Nat.div_add_mod' _ _).symm

/-- The magnitude is kept whole exactly when the dropped bits are zero (R85). -/
theorem keptPart_eq_self_iff_droppedBits (a : Word) :
    keptPart a.toInt.natAbs = a.toInt.natAbs ↔ droppedBits a = 0#8 := by
  have hsplit := normWord_eq_kept_add_dropped a
  rw [← magnitude_toNat, ← BitVec.toNat_inj, BitVec.toNat_zero,
    ← Nat.mul_left_inj (Nat.two_pow_pos (shiftCount (magnitude a)).toNat).ne']
  omega

/-- Nothing is dropped for zero. -/
theorem droppedBits_zero : droppedBits 0#32 = 0#8 := by decide

/-- A magnitude whose set bits span at most 24 positions is kept whole (R85). -/
theorem keptPart_of_span {n j : Nat} (hlt : n < 2 ^ (j + 24)) (hdvd : 2 ^ j ∣ n) : keptPart n = n := by
  rw [keptPart_eq_self_iff]
  refine (pow_dvd_pow 2 ?_).trans hdvd
  by_cases h0 : n = 0
  · rw [h0]
    exact Nat.zero_le j
  · have := (Nat.log2_lt h0).2 hlt
    rw [keptExponent]
    omega

/-- A magnitude up to `2^24` is kept whole (R85). -/
theorem keptPart_of_le {n : Nat} (h : n ≤ 2 ^ 24) : keptPart n = n := by
  rcases h.eq_or_lt with rfl | hlt
  · decide
  · exact keptPart_of_keptExponent_eq_zero (keptExponent_of_lt hlt)

/-- Whether the native conversion takes the neighbour further from zero: the dropped part is more than half of the last
kept bit's weight, or half of it and the kept bits are odd (93_implementation_defined.md G3). -/
def roundsUp (n : Nat) : Bool :=
  decide (2 ^ keptExponent n < 2 * (n % 2 ^ keptExponent n)) ||
    (decide (2 * (n % 2 ^ keptExponent n) = 2 ^ keptExponent n) && decide (n / 2 ^ keptExponent n % 2 = 1))

/-- A magnitude that is kept whole is not rounded up: half of the last kept bit's weight is not nothing. -/
theorem roundsUp_of_keptPart_eq_self {n : Nat} (h : keptPart n = n) : roundsUp n = false := by
  have hpos := Nat.two_pow_pos (keptExponent n)
  rw [roundsUp, ← sub_keptPart, h, Nat.sub_self]
  simp [hpos.ne]

/-- The native conversion keeps the sign and adds to the kept part one unit of its last bit where it rounds up (G3). -/
theorem nativeRne_eq_sign_mul (x : ℤ) : nativeRne x =
    x.sign * (keptPart x.natAbs + (roundsUp x.natAbs).toNat * 2 ^ keptExponent x.natAbs : Nat) := by
  by_cases hlt : x.natAbs < 2 ^ 24
  · have hkept := keptPart_of_le hlt.le
    rw [nativeRne, if_pos hlt, hkept, roundsUp_of_keptPart_eq_self hkept, Bool.toNat_false, Nat.zero_mul, Nat.add_zero,
      Int.sign_mul_natAbs]
  · rw [nativeRne, if_neg hlt]
    change x.sign * ((if roundsUp x.natAbs = true then _ else _) * 2 ^ keptExponent x.natAbs : Nat) = _
    cases roundsUp x.natAbs
    · rw [if_neg Bool.false_ne_true, keptPart, Bool.toNat_false, Nat.zero_mul, Nat.add_zero]
    · rw [if_pos rfl, keptPart, Bool.toNat_true, Nat.add_mul]

/-- Where it does not round up the native conversion truncates. -/
theorem nativeRne_of_roundsUp_false {x : ℤ} (h : roundsUp x.natAbs = false) : nativeRne x = trunc24 x := by
  rw [nativeRne_eq_sign_mul, h, Bool.toNat_false, Nat.zero_mul, Nat.add_zero, trunc24_eq_sign_mul]

/-- The native conversion of a magnitude that is kept whole is exact. -/
theorem nativeRne_of_keptPart_eq_self {x : ℤ} (h : keptPart x.natAbs = x.natAbs) : nativeRne x = x := by
  rw [nativeRne_of_roundsUp_false (roundsUp_of_keptPart_eq_self h), trunc24_eq_sign_mul, h, Int.sign_mul_natAbs]

/-- Settles O40: by the value law the conversion is exact where the magnitude is kept whole, which is where the dropped
bits are zero, and the native conversion does not round a magnitude that is kept whole. -/
theorem exactExactlyWhenNothingIsDropped : Obligations.ExactExactlyWhenNothingIsDropped := by
  refine ⟨fun a => ?_, fun a ha => ?_, fun a j hlt hdvd => ?_⟩
  · rw [fp32Value_eq_toInt_iff, keptPart_eq_self_iff_droppedBits]
    exact ⟨.inr, fun h => h.elim (fun ha => ha ▸ droppedBits_zero) id⟩
  · have hkept := keptPart_of_le ha
    exact ⟨(fp32Value_eq_toInt_iff a).2 hkept, nativeRne_of_keptPart_eq_self hkept⟩
  · rw [magnitude_toNat] at hlt hdvd
    exact (fp32Value_eq_toInt_iff a).2 (keptPart_of_span hlt hdvd)

end Sys2Proof.Machine
end

section
/-! SUPPORT. The operands that are converted exactly, counted by their magnitudes, and the statement on their number
(43_numeric_laws.md section 2). -/

namespace Sys2Proof.Machine

/-- Whether the magnitude `n` is kept whole: its conversion is exact (R85). -/
def keptWhole (n : Nat) : Bool := keptPart n == n

theorem keptWhole_iff (n : Nat) : keptWhole n = true ↔ 2 ^ keptExponent n ∣ n := by
  rw [keptWhole, beq_iff_eq, keptPart_eq_self_iff]

/-- From `2^(24 + k)` up to the next power of two the kept bits end at bit `k + 1`. -/
theorem keptExponent_of_range {k i : Nat} (hi : i < 2 ^ (24 + k)) : keptExponent (2 ^ (24 + k) + i) = k + 1 := by
  have hpow : 2 ^ (24 + k + 1) = 2 * 2 ^ (24 + k) := pow_succ' 2 _
  have hlog : Nat.log2 (2 ^ (24 + k) + i) = 24 + k := (Nat.log2_eq_iff (by omega)).2 ⟨by omega, by omega⟩
  rw [keptExponent, hlog]
  omega

/-- Between these powers of two the magnitudes kept whole are those at multiples of `2^(k + 1)`. -/
theorem keptWhole_of_range {k i : Nat} (hi : i < 2 ^ (24 + k)) :
    keptWhole (2 ^ (24 + k) + i) = true ↔ i ≡ 0 [MOD 2 ^ (k + 1)] := by
  rw [keptWhole_iff, keptExponent_of_range hi, Nat.dvd_add_right (pow_dvd_pow 2 (by omega)), Nat.modEq_zero_iff_dvd]

/-- Two predicates that agree below `n` have the same count. -/
theorem count_congr_below {p q : Nat → Prop} [DecidablePred p] [DecidablePred q] {n : Nat} (h : ∀ k < n, (p k ↔ q k)) :
    Nat.count p n = Nat.count q n :=
  le_antisymm (Nat.count_mono_left fun k hk => (h k hk).1) (Nat.count_mono_left fun k hk => (h k hk).2)

/-- The magnitudes kept whole: all below `2^24`, and `2^23` more up to each further power of two. -/
theorem count_keptWhole_two_pow (k : Nat) :
    Nat.count (fun n => keptWhole n = true) (2 ^ (24 + k)) = 2 ^ 24 + k * 2 ^ 23 := by
  induction k with
  | zero =>
    rw [Nat.zero_mul, Nat.add_zero, Nat.add_zero, Nat.count_iff_forall]
    exact fun n hn => beq_iff_eq.2 (keptPart_of_le hn.le)
  | succ k ih =>
    have hdouble : 2 ^ (24 + (k + 1)) = 2 ^ (24 + k) + 2 ^ (24 + k) := by rw [← Nat.two_mul, ← pow_succ']; rfl
    have hmultiples : 2 ^ (24 + k) = 2 ^ (k + 1) * 2 ^ 23 := by rw [← pow_add]; congr 1; omega
    have hpos := Nat.two_pow_pos (k + 1)
    have hnew : Nat.count (fun i => keptWhole (2 ^ (24 + k) + i) = true) (2 ^ (24 + k)) = 2 ^ 23 := by
      rw [count_congr_below fun i hi => keptWhole_of_range hi, Nat.count_modEq_card _ hpos, hmultiples,
        Nat.mul_div_cancel_left _ hpos, Nat.zero_mod, Nat.mul_mod_right, if_neg (lt_irrefl 0), Nat.add_zero]
    rw [hdouble, Nat.count_add, ih, hnew]
    omega

/-- The numbers 1 to `n` hold as many with a property as 0 to `n - 1`, when both 0 and `n` have it. -/
theorem count_shift (p : Nat → Prop) [DecidablePred p] {n : Nat} (h0 : p 0) (hn : p n) :
    Nat.count (fun i => p (i + 1)) n = Nat.count p n := by
  have hfirst := Nat.count_succ' p n
  rw [Nat.count_succ, if_pos hn, if_pos h0] at hfirst
  exact (Nat.add_right_cancel hfirst).symm

/-- Counting downwards from `n` counts the numbers 1 to `n`. -/
theorem count_sub (p : Nat → Prop) [DecidablePred p] (n : Nat) :
    Nat.count (fun i => p (n - i)) n = Nat.count (fun i => p (i + 1)) n := by
  have hsum (q : Nat → Prop) [DecidablePred q] : Nat.count q n = ∑ i ∈ Finset.range n, if q i then 1 else 0 := by
    rw [Nat.count_eq_card_filter_range, Finset.card_filter]
  rw [hsum, hsum, ← Finset.sum_range_reflect]
  refine Finset.sum_congr rfl fun i hi => ?_
  have hi := Finset.mem_range.1 hi
  rw [show n - (n - 1 - i) = i + 1 by omega]

/-- The magnitudes of the words below `2^31` are these words (R50). -/
theorem natAbs_toInt_ofNat {n : Nat} (hn : n < 2 ^ 31) : (BitVec.ofNat 32 n).toInt.natAbs = n := by
  rw [BitVec.toInt_eq_toNat_cond, BitVec.toNat_ofNat]
  split_ifs <;> omega

/-- The magnitudes of the words from `2^31` on fall from `2^31` to 1 (R50, R51). -/
theorem natAbs_toInt_ofNat_add {i : Nat} (hi : i < 2 ^ 31) :
    (BitVec.ofNat 32 (2 ^ 31 + i)).toInt.natAbs = 2 ^ 31 - i := by
  rw [BitVec.toInt_eq_toNat_cond, BitVec.toNat_ofNat]
  split_ifs <;> omega

/-- The magnitudes 0 to `2^31 - 1` that are kept whole. -/
theorem count_keptWhole : Nat.count (fun n => keptWhole n = true) (2 ^ 31) = 75497472 :=
  (count_keptWhole_two_pow 7).trans (by decide)

/-- The magnitudes 1 to `2^31` that are kept whole, counted downwards: as many, since 0 and `2^31` both are. -/
theorem count_keptWhole_sub : Nat.count (fun i => keptWhole (2 ^ 31 - i) = true) (2 ^ 31) = 75497472 := by
  rw [count_sub (fun n => keptWhole n = true), count_shift (fun n => keptWhole n = true) (by decide) (by decide),
    count_keptWhole]

/-- A count over twice a range is the sum of those over its halves. -/
theorem count_halves {p : Nat → Prop} [DecidablePred p] {n low high : Nat} (hlow : Nat.count p n = low)
    (hhigh : Nat.count (fun i => p (n + i)) n = high) : Nat.count p (n + n) = low + high := by
  rw [Nat.count_add, hlow, hhigh]

/-- Counting words is counting numbers. -/
theorem card_words_eq_count {w : Nat} (p : BitVec w → Prop) [DecidablePred p] :
    Nat.card { a : BitVec w // p a } = Nat.count (fun n => p (BitVec.ofNat w n)) (2 ^ w) := by
  have hword (a : BitVec w) : BitVec.ofNat w a.toNat = a := by rw [BitVec.ofNat_toNat, BitVec.setWidth_eq]
  rw [Nat.count_eq_card_filter_range, Nat.card_eq_fintype_card, Fintype.card_subtype]
  refine Finset.card_nbij' BitVec.toNat (BitVec.ofNat w) (fun a ha => ?_) (fun n hn => ?_) (fun a _ => hword a)
    (fun n hn => ?_)
  · simpa [hword, a.isLt] using ha
  · simpa using (Finset.mem_filter.1 hn).2
  · exact Nat.mod_eq_of_lt (Finset.mem_range.1 (Finset.mem_filter.1 hn).1)

/-- Settles O41: a word is converted exactly when its magnitude is kept whole. The words below `2^31` have the
magnitudes 0 to `2^31 - 1`, the others 1 to `2^31`, and either half holds `2^24 + 7 * 2^23` of them. -/
theorem exactOperandsNumber150994944 : Obligations.ExactOperandsNumber150994944 := by
  have hexact (a : Word) : fp32Value (i2fRtz a) = some (a.toInt : ℚ) ↔ keptWhole a.toInt.natAbs = true :=
    (fp32Value_eq_toInt_iff a).trans beq_iff_eq.symm
  have hlow : Nat.count (fun n => keptWhole (BitVec.ofNat 32 n).toInt.natAbs = true) (2 ^ 31) = 75497472 :=
    (count_congr_below fun n hn => iff_of_eq (by rw [natAbs_toInt_ofNat hn])).trans count_keptWhole
  have hhigh :
      Nat.count (fun i => keptWhole (BitVec.ofNat 32 (2 ^ 31 + i)).toInt.natAbs = true) (2 ^ 31) = 75497472 :=
    (count_congr_below fun i hi => iff_of_eq (by rw [natAbs_toInt_ofNat_add hi])).trans count_keptWhole_sub
  calc Nat.card { a : Word // fp32Value (i2fRtz a) = some (a.toInt : ℚ) }
      = Nat.card { a : Word // keptWhole a.toInt.natAbs = true } := Nat.card_congr (Equiv.subtypeEquivRight hexact)
    _ = Nat.count (fun n => keptWhole (BitVec.ofNat 32 n).toInt.natAbs = true) (2 ^ 31 + 2 ^ 31) :=
      (card_words_eq_count fun a : Word => keptWhole a.toInt.natAbs = true).trans (congrArg _ (by decide))
    _ = 75497472 + 75497472 := count_halves hlow hhigh

end Sys2Proof.Machine
end

section
/-! SUPPORT. An operand for every pattern of the code space, and the statement that the code space is hit whole
(30_encoding.md R44). -/

namespace Sys2Proof.Machine

/-- Every result is a pattern of the code space (R44). -/
theorem inCodeSpace_i2fRtz (a : Word) : InCodeSpace (i2fRtz a) := by
  by_cases ha : a = 0#32
  · exact .inl ((i2fRtz_eq_zero_iff a).2 ha)
  by_cases hmin : a = i32Min
  · exact .inr (.inl ((i2fRtz_eq_min_iff a).2 hmin))
  · obtain ⟨hlow, hhigh⟩ := expField_i2fRtz_range a ha
    have hne := mt (expField_i2fRtz_eq_158_iff a ha).1 hmin
    refine .inr (.inr ⟨hlow, by omega, ?_⟩)
    rcases Nat.le_total (expField (i2fRtz a)).toNat 150 with hle | hge
    · exact fracField_i2fRtz_low_zero a hlow hle
    · rw [Nat.sub_eq_zero_of_le hge, pow_zero, Nat.mod_one]

/-- Every integer below `2^31` in magnitude is the value of a word with its sign, if it is not 0 (R38). -/
theorem exists_word_of_magnitude (sign : Bool) (n : Nat) (hpos : 0 < n) (hlt : n < 2 ^ 31) :
    ∃ a : Word, a ≠ 0#32 ∧ signBit a = sign ∧ (magnitude a).toNat = n := by
  have hval : (BitVec.ofNat 32 n).toInt = n := by
    rw [BitVec.toInt_eq_toNat_of_lt] <;> rw [BitVec.toNat_ofNat] <;> omega
  have hpos' : 0 < (BitVec.ofNat 32 n).toInt := by omega
  have hne := mt (toInt_eq_zero_iff _).2 hpos'.ne'
  have hmin : BitVec.ofNat 32 n ≠ i32Min := by
    intro h
    rw [h] at hpos'
    exact absurd hpos' (by decide)
  have hsign : signBit (BitVec.ofNat 32 n) = false := Bool.eq_false_iff.2 (mt (signBit_iff_neg _).1 hpos'.not_gt)
  have hmag : (magnitude (BitVec.ofNat 32 n)).toNat = n := by rw [magnitude_toNat, hval, Int.natAbs_natCast]
  cases sign
  · exact ⟨_, hne, hsign, hmag⟩
  · refine ⟨-BitVec.ofNat 32 n, mt BitVec.neg_eq_zero_iff.1 hne, ?_, ?_⟩
    · rw [signBit_neg _ hne hmin, hsign, Bool.not_false]
    · rw [magnitude_neg, hmag]

/-- The magnitude that fields of the code space give: R44's zeros are those that a division by `2^23` needs. -/
theorem exists_magnitude_of_fields {e f : Nat} (hlow : 127 ≤ e) (hhigh : e ≤ 157) (hf : f < 2 ^ 23)
    (hzeros : f % 2 ^ (150 - e) = 0) : ∃ n, 0 < n ∧ n < 2 ^ 31 ∧ n * 2 ^ 23 = (2 ^ 23 + f) * 2 ^ (e - 127) := by
  obtain ⟨n, hn⟩ : 2 ^ 23 ∣ (2 ^ 23 + f) * 2 ^ (e - 127) := by
    calc 2 ^ 23 ∣ 2 ^ (150 - e) * 2 ^ (e - 127) := by
          rw [← pow_add]
          exact pow_dvd_pow 2 (by omega)
      _ ∣ (2 ^ 23 + f) * 2 ^ (e - 127) :=
          Nat.mul_dvd_mul_right (Nat.dvd_add (pow_dvd_pow 2 (by omega)) (Nat.dvd_of_mod_eq_zero hzeros)) _
  have hpos : 0 < (2 ^ 23 + f) * 2 ^ (e - 127) := Nat.mul_pos (by omega) (Nat.two_pow_pos _)
  have hlt : (2 ^ 23 + f) * 2 ^ (e - 127) < 2 ^ 24 * 2 ^ 30 :=
    Nat.mul_lt_mul_of_lt_of_le (by omega) (Nat.pow_le_pow_right Nat.two_pos (by omega)) (Nat.two_pow_pos 30)
  exact ⟨n, by omega, by omega, by omega⟩

/-- Two patterns with the same fields are the same (30_encoding.md R39). -/
theorem eq_of_fields {y z : Word} (hs : signField y = signField z) (he : (expField y).toNat = (expField z).toNat)
    (hf : (fracField y).toNat = (fracField z).toNat) : y = z := by
  rw [eq_append_fields y, eq_append_fields z, hs, BitVec.eq_of_toNat_eq he, BitVec.eq_of_toNat_eq hf]

/-- A nonzero operand's fields by its magnitude: with `e` the exponent field of its highest set bit and `f` the bits
below it, it gives exponent field `e` and mantissa field `f`. -/
theorem fields_i2fRtz_of_magnitude {a : Word} {e f : Nat} (ha : a ≠ 0#32) (hlow : 127 ≤ e) (hhigh : e ≤ 158)
    (hf : f < 2 ^ 23) (hmag : (magnitude a).toNat * 2 ^ 23 = (2 ^ 23 + f) * 2 ^ (e - 127)) :
    (expField (i2fRtz a)).toNat = e ∧ (fracField (i2fRtz a)).toNat = f := by
  have hexp : e - 127 + (158 - e) = 8 + 23 := by omega
  have hshifted : (magnitude a).toNat * 2 ^ (158 - e) = (2 ^ 23 + f) * 2 ^ 8 := by
    refine Nat.eq_of_mul_eq_mul_right (Nat.two_pow_pos 23) ?_
    rw [Nat.mul_right_comm, hmag, Nat.mul_assoc, ← pow_add, Nat.mul_assoc, ← pow_add, hexp]
  have hword : (BitVec.ofNat 32 ((2 ^ 23 + f) * 2 ^ 8)).toNat = (2 ^ 23 + f) * 2 ^ 8 :=
    Nat.mod_eq_of_lt (by omega)
  have hs : (shiftCount (magnitude a)).toNat = 158 - e := by
    rw [shiftCount_eq_clz _ (magnitude_toNat_pos a ha)]
    exact (eq_clz_of_normalised _ _ _ (hword.trans hshifted.symm) (by rw [hword]; omega)).symm
  rw [expField_i2fRtz a ha, fracField_i2fRtz a ha, normWord_toNat, hs, hshifted]
  omega

/-- Settles O44: the fields of a pattern of the code space give an integer, and the operand of that magnitude and sign
has a result with the same fields. -/
theorem everyCodeSpacePatternIsProduced : Obligations.EveryCodeSpacePatternIsProduced := by
  refine fun z => ⟨?_, fun ⟨a, ha⟩ => ha ▸ inCodeSpace_i2fRtz a⟩
  rintro (rfl | rfl | ⟨hlow, hhigh, hzeros⟩)
  · exact ⟨0#32, i2fRtz_zero⟩
  · exact ⟨i32Min, i2fRtz_i32Min⟩
  · have hf := (fracField z).isLt
    obtain ⟨n, hpos, hlt, hn⟩ := exists_magnitude_of_fields hlow hhigh hf hzeros
    obtain ⟨a, ha, hsign, hmag⟩ := exists_word_of_magnitude (signField z) n hpos hlt
    obtain ⟨he, hfrac⟩ := fields_i2fRtz_of_magnitude ha hlow (hhigh.trans (by decide)) hf (hmag ▸ hn)
    exact ⟨a, eq_of_fields ((signField_i2fRtz a).trans hsign) he hfrac⟩

end Sys2Proof.Machine
end

section
/-! SUPPORT. The pattern after a pattern, and the statement on where the native conversion differs
(43_numeric_laws.md R94, 93_implementation_defined.md G3). -/

namespace Sys2Proof.Machine

/-- The fields of the next pattern: the mantissa field counts on, and its carry goes to the exponent field. -/
theorem fields_add_one (z : Word) (hE : (expField z).toNat ≤ 253) :
    signField (z + 1#32) = signField z ∧
      (((fracField z).toNat + 1 < 2 ^ 23 ∧ (expField (z + 1#32)).toNat = (expField z).toNat ∧
          (fracField (z + 1#32)).toNat = (fracField z).toNat + 1) ∨
        ((fracField z).toNat + 1 = 2 ^ 23 ∧ (expField (z + 1#32)).toNat = (expField z).toNat + 1 ∧
          (fracField (z + 1#32)).toNat = 0)) := by
  have hz := z.isLt
  have hone : (1#32 : Word).toNat = 1 := rfl
  rw [Bool.eq_iff_iff, signField_iff, signField_iff]
  simp only [expField_toNat, fracField_toNat, BitVec.toNat_add, hone] at hE ⊢
  omega

/-- The value of the next pattern lies one unit of the last mantissa bit further from zero. -/
theorem fp32Value_add_one (z : Word) (hlow : 1 ≤ (expField z).toNat) (hhigh : (expField z).toNat ≤ 253) :
    fp32Value (z + 1#32) = some ((-1 : ℚ) ^ (signField z).toNat *
      (2 ^ (((expField z).toNat : ℤ) - 127) * (1 + (fracField z).toNat / 2 ^ 23) +
        2 ^ (((expField z).toNat : ℤ) - 150))) := by
  have hunit : (2 : ℚ) ^ (((expField z).toNat : ℤ) - 150) = 2 ^ (((expField z).toNat : ℤ) - 127) / 2 ^ 23 := by
    rw [eq_div_iff (by positivity), ← zpow_natCast, ← zpow_add₀ two_ne_zero]
    congr 1
    omega
  obtain ⟨hs, ⟨-, he, hf⟩ | ⟨hcarry, he, hf⟩⟩ := fields_add_one z hhigh
  · rw [fp32Value_of_fields _ _ _ _ hs he hf hlow (by omega), hunit]
    push_cast
    exact congrArg some (by ring)
  · have hfrac : ((fracField z).toNat : ℚ) = 2 ^ 23 - 1 := by
      rw [eq_sub_iff_add_eq]
      exact_mod_cast hcarry
    have hexp : (((expField z).toNat + 1 : Nat) : ℤ) - 127 = ((expField z).toNat : ℤ) - 127 + 1 := by omega
    rw [fp32Value_of_fields _ _ _ _ hs he hf (by omega) (by omega), hunit, hfrac, hexp, zpow_add_one₀ two_ne_zero]
    exact congrArg some (by ring)

/-- Only a magnitude of which bits are dropped is rounded up. -/
theorem keptExponent_ne_zero_of_roundsUp {n : Nat} (h : roundsUp n = true) : keptExponent n ≠ 0 := by
  intro h0
  rw [roundsUp_of_keptPart_eq_self (keptPart_of_keptExponent_eq_zero h0)] at h
  exact absurd h (by decide)

/-- Where the native conversion rounds up, its result is the pattern after the block's (R94). -/
theorem fp32Value_i2fRtz_add_one (a : Word) (h : roundsUp a.toInt.natAbs = true) :
    fp32Value (i2fRtz a + 1#32) = some (nativeRne a.toInt : ℚ) := by
  have hk := keptExponent_ne_zero_of_roundsUp h
  have ha : a ≠ 0#32 := by
    rintro rfl
    exact absurd h (by decide)
  obtain ⟨hlow, hhigh⟩ := expField_i2fRtz_range a ha
  have hunit : ((expField (i2fRtz a)).toNat : ℤ) - 150 = keptExponent (magnitude a).toNat := by
    rw [← magnitude_toNat] at hk
    rw [keptExponent_magnitude] at hk ⊢
    rw [expField_i2fRtz a ha]
    omega
  rw [fp32Value_add_one _ (by omega) (by omega), expField_fracField_value a ha, signField_i2fRtz, hunit, zpow_natCast,
    ← toInt_sign a ha, nativeRne_eq_sign_mul, h, Bool.toNat_true, Nat.one_mul, magnitude_toNat]
  push_cast
  rfl

/-- The two conversions agree where the native one does not round up. -/
theorem fp32Value_eq_nativeRne {a : Word} (h : roundsUp a.toInt.natAbs = false) :
    fp32Value (i2fRtz a) = some (nativeRne a.toInt : ℚ) := by
  rw [fp32Value_i2fRtz, nativeRne_of_roundsUp_false h]

/-- Below 16777219 no magnitude is rounded up: `2^24 + 1` lies half way, and the kept bits `2^23` are even (R94). -/
theorem roundsUp_of_lt {n : Nat} (h : n < 16777219) : roundsUp n = false := by
  rcases Nat.lt_or_ge n (2 ^ 24) with hlt | hge
  · exact roundsUp_of_keptPart_eq_self (keptPart_of_le hlt.le)
  · obtain rfl | rfl | rfl : n = 16777216 ∨ n = 16777217 ∨ n = 16777218 := by omega
    all_goals decide

/-- The patterns of R94's examples, all with exponent field 151. -/
theorem fp32Value_of_expField_151 (z : Word) (f : Nat) (hs : signField z = false) (he : (expField z).toNat = 151)
    (hf : (fracField z).toNat = f) : fp32Value z = some (16777216 + 2 * (f : ℚ)) := by
  rw [fp32Value_of_fields z false 151 f hs he hf (by decide) (by decide)]
  norm_num
  ring

/-- Settles O50: the conversions agree where the native one does not round up; where it does, bits are dropped that are
not all zero, and the native result is one unit of the last kept bit further out, which is the next pattern. -/
theorem nativeConversionDivergesByOnePattern : Obligations.NativeConversionDivergesByOnePattern := by
  refine ⟨fun a ha => fp32Value_eq_nativeRne (roundsUp_of_lt (by omega)), by decide, by decide, ?_, by decide,
    by decide, ?_, ?_, fun a hpos hlt => fp32Value_eq_nativeRne (roundsUp_of_lt (by omega)), fun a hne => ?_⟩
  · rw [fp32Value_of_expField_151 _ 0 (by decide) (by decide) (by decide)]
    norm_num
  · rw [fp32Value_of_expField_151 _ 1 (by decide) (by decide) (by decide)]
    norm_num
  · rw [fp32Value_of_expField_151 _ 2 (by decide) (by decide) (by decide)]
    norm_num
  · have hup : roundsUp a.toInt.natAbs = true := Bool.of_not_eq_false (mt fp32Value_eq_nativeRne hne)
    refine ⟨?_, fp32Value_i2fRtz_add_one a hup, fun hexact => ?_⟩
    · by_contra hlt
      exact keptExponent_ne_zero_of_roundsUp hup (keptExponent_of_lt (not_le.1 hlt))
    · rw [roundsUp_of_keptPart_eq_self ((fp32Value_eq_toInt_iff a).1 hexact)] at hup
      exact absurd hup (by decide)

end Sys2Proof.Machine
end

section
/-! SUPPORT. A step and a run as operations on the state (70_reset_and_hazards.md R112), and the statements on the step,
the run and the invariant. -/

namespace Sys2Proof.Machine

/-- An operand and its result are a truthful pair (43_numeric_laws.md R84, 30_encoding.md R44). -/
theorem truthful_i2fRtz (a : Word) : Truthful (a, i2fRtz a) :=
  ⟨fp32Value_i2fRtz a, inCodeSpace_i2fRtz a⟩

/-- Settling the output makes the ports truthful (10_state.md R17). -/
theorem sound_settle {s : State} (h : ∀ p ∈ s.observed, Truthful p) : Sound s.settle :=
  ⟨truthful_i2fRtz s.a, h⟩

/-- Observing truthful ports keeps the observation truthful. -/
theorem sound_observe {s : State} (h : Sound s) : Sound s.observe := by
  refine ⟨h.ports, fun p hp => ?_⟩
  rw [State.observe_observed, List.mem_append, List.mem_singleton] at hp
  rcases hp with hold | rfl
  · exact h.observed p hold
  · exact h.ports

/-- Settles O18: a step settles the output on a word that is held or presented, and observes at most the ports so
settled. -/
theorem stepKeepsSound : Obligations.StepKeepsSound := by
  intro s hs
  obtain ⟨-, hhold⟩ | ⟨w, rest, -, heval⟩ := step_cases s
  · exact ⟨_, hhold, sound_settle hs.observed⟩
  · exact ⟨_, heval, sound_observe (sound_settle hs.observed)⟩

/-- Settles O19: nothing is observed at reset, and the ports hold zero and its result. -/
theorem resetIsSound : Obligations.ResetIsSound :=
  ⟨truthful_i2fRtz 0#32, by simp⟩

/-- Settles O20: the fields of the reset state, with `z` the result of zero. -/
theorem resetLeavesNothingPresented : Obligations.ResetLeavesNothingPresented :=
  ⟨State.reset_operands, State.reset_observed, State.reset_a, i2fRtz_zero.symm⟩

/-- Settles O12: every step settles the output, and a pattern is its three fields. -/
theorem outputFollowsInputAfterEveryStep : Obligations.OutputFollowsInputAfterEveryStep := by
  intro s
  obtain ⟨-, hhold⟩ | ⟨w, rest, -, heval⟩ := step_cases s
  · exact ⟨_, hhold, rfl, eq_append_fields _⟩
  · exact ⟨_, heval, rfl, eq_append_fields _⟩

/-- Settles O2: an evaluation writes the ports and appends one pair to what was observed. -/
theorem conversionFrame : Obligations.ConversionFrame := by
  intro a s
  refine ⟨_, exec_i2fRtz a s, rfl, rfl, ?_, fun n hn => ?_, ?_⟩ <;> rw [State.evaluate_eq]
  · exact List.length_append
  · exact List.getElem?_append_left hn
  · exact List.getLast?_concat

/-- Settles O9: the next operand is the first of the list, and the step is `exec` of it decoded. -/
theorem stepEvaluatesTheDecodedOperand : Obligations.StepEvaluatesTheDecodedOperand :=
  fun _ w _ => (step_of_nextOperand_some rfl).trans (exec_i2fRtz w _).symm

/-- Settles O10: with no operand left a step holds, which settles the output. -/
theorem portsHoldAfterTheLastOperand : Obligations.PortsHoldAfterTheLastOperand :=
  fun _ => step_of_nextOperand_none rfl

/-- Bits have no word exactly when they are more than 32 (log entry 13). -/
theorem tableWord_eq_none_iff (nbits w : Nat) : tableWord nbits w = none ↔ 32 < nbits := by
  by_cases h : nbits ≤ 32
  · simp [tableWord, h]
  · simp [tableWord, h, Nat.lt_of_not_le h]

/-- Settles O11: the decoder and the placing take the same word of the bits; placing it and taking the next operand
gives it back. -/
theorem placedWordIsTheNextEvaluation : Obligations.PlacedWordIsTheNextEvaluation := by
  refine ⟨fun s nbits w i hi => ?_, fun nbits w => ?_, fun s nbits w hnone => ?_⟩
  · obtain ⟨v, hv, rfl⟩ := Option.map_eq_some_iff.1 hi
    rw [State.withFetchWord, State.placeTableWord, hv]
    exact (step_of_nextOperand_some (s.nextOperand_place v)).trans (exec_i2fRtz v s).symm
  · rw [decodeTableWord, Option.map_eq_none_iff, tableWord_eq_none_iff]
  · rw [decodeTableWord, Option.map_eq_none_iff, tableWord_eq_none_iff] at hnone
    exact s.placeTableWord_of_gt nbits w hnone

/-- The state after the evaluation of some operands, one after the other. -/
def State.evaluateAll (s : State) (ws : List Word) : State :=
  ws.foldl (fun t w => (t.present w).settle.observe) s

section
variable (s : State) (w : Word) (ws rest : List Word)

theorem State.evaluateAll_cons : s.evaluateAll (w :: ws) = (s.present w).settle.observe.evaluateAll ws := rfl

theorem State.evaluateAll_concat :
    s.evaluateAll (ws ++ [w]) = ((s.evaluateAll ws).present w).settle.observe := by
  rw [evaluateAll, List.foldl_append]
  rfl

/-- Evaluations leave the operands still to come as they are. -/
@[simp] theorem State.evaluateAll_operands : (s.evaluateAll ws).operands = s.operands := by
  induction ws generalizing s with
  | nil => rfl
  | cons w ws ih => rw [evaluateAll_cons, ih]; rfl

/-- Each evaluation adds its operand and the operand's own result to the observation (R112). -/
theorem State.evaluateAll_observed :
    (s.evaluateAll ws).observed = s.observed ++ ws.map fun a => (a, i2fRtz a) := by
  induction ws generalizing s with
  | nil => exact (List.append_nil _).symm
  | cons w ws ih => rw [evaluateAll_cons, ih, evaluate_eq, List.append_assoc]; rfl

/-- The last operand stands on the input port. -/
theorem State.evaluateAll_a : (s.evaluateAll ws).a = ws.getLast?.getD s.a := by
  induction ws generalizing s with
  | nil => rfl
  | cons w ws ih => rw [evaluateAll_cons, ih, List.getLast?_cons]; rfl

/-- A run begins with a step and goes on from the state it answers. -/
theorem run_succ_of_step {s t : State} (h : step s = .next t) (k : Nat) :
    Host.Core.run core (k + 1) s = Host.Core.run core k t := by
  have hcore : core.step s = .next t := h
  simp only [Host.Core.run, hcore]

/-- A run of as many steps as there are operands in front evaluates these (R112). -/
theorem run_append_operands : Host.Core.run core ws.length { s with operands := ws ++ rest } =
    .next (({ s with operands := rest } : State).evaluateAll ws) := by
  induction ws generalizing s with
  | nil => rfl
  | cons w ws ih =>
    have hstep := step_of_nextOperand_some (State.nextOperand_place { s with operands := ws ++ rest } w)
    exact (run_succ_of_step hstep ws.length).trans (ih (s.present w).settle.observe)

end

/-- Settles O13: the steps evaluate the operands one after the other, and each evaluation adds its own pair. -/
theorem runObservesEveryPair : Obligations.RunObservesEveryPair := by
  intro s
  have hrun := run_append_operands s s.operands []
  rw [List.append_nil] at hrun
  exact ⟨_, hrun, State.evaluateAll_operands _ _, State.evaluateAll_observed _ _, State.evaluateAll_a _ _⟩

/-- Settles O14: after any operands the last step of the run evaluates `a`, which overwrites both ports. -/
theorem earlierOperandsDoNotMatter : Obligations.EarlierOperandsDoNotMatter := by
  intro s before after a
  have hrun := run_append_operands s (before ++ [a]) after
  rw [List.length_append, List.append_assoc, State.evaluateAll_concat] at hrun
  refine ⟨_, hrun, rfl, rfl, ?_, ?_⟩ <;> rw [State.evaluate_eq]
  · exact State.evaluateAll_operands _ _
  · exact List.getLast?_concat

end Sys2Proof.Machine
end

section
/-! SUPPORT. Several copies of the block (60_exceptions.md R104), and the statements on their schedules. -/

namespace Sys2Proof.Machine

/-- A run of no steps stays where it is. -/
theorem run_zero (s : State) : Host.Core.run core 0 s = .next s := rfl

/-- Where there is no copy, nothing is stepped (log entry 14). -/
theorem stepCopy_of_none {n : Nat} {blocks : List State} (h : blocks[n]? = none) :
    stepCopy n blocks = .next blocks := by
  simp only [stepCopy, h]

/-- A copy is stepped by its own step. -/
theorem stepCopy_of_some {n : Nat} {blocks : List State} {s t : State} (h : blocks[n]? = some s)
    (hstep : step s = .next t) : stepCopy n blocks = .next (blocks.set n t) := by
  simp only [stepCopy, h, hstep]

/-- All that stepping a copy can do: as many copies are there afterwards, the one named is where a step of its own
brings it, and every other is where it was. -/
theorem stepCopy_spec (n : Nat) (blocks : List State) : ∃ blocks' : List State, stepCopy n blocks = .next blocks' ∧
    blocks'.length = blocks.length ∧ (∀ k, k ≠ n → blocks'[k]? = blocks[k]?) ∧
    ∀ s, blocks[n]? = some s → ∃ t, step s = .next t ∧ blocks'[n]? = some t := by
  cases hn : blocks[n]? with
  | none => exact ⟨blocks, stepCopy_of_none hn, rfl, fun _ _ => rfl, fun s hs => nomatch hs⟩
  | some s =>
    obtain ⟨-, htotal, -⟩ := noStepFaultsOrRefuses
    obtain ⟨t, hstep⟩ := htotal s
    have hlt : n < blocks.length := (List.getElem?_eq_some_iff.1 hn).1
    refine ⟨_, stepCopy_of_some hn hstep, List.length_set, fun k hk => List.getElem?_set_ne hk.symm, fun s' hs' => ?_⟩
    cases hs'
    exact ⟨t, hstep, List.getElem?_set_self hlt⟩

/-- A schedule steps the copy it names first and goes on from there. -/
theorem runSchedule_cons {n : Nat} {rest : List Nat} {blocks blocks' : List State}
    (h : stepCopy n blocks = .next blocks') : runSchedule (n :: rest) blocks = runSchedule rest blocks' := by
  simp only [runSchedule, h]

/-- Settles O16: by induction on the schedule. Its first step brings the copy it names one step further, and the rest of
the schedule has one step less for that copy and as many for the others. -/
theorem copiesRunIndependently : Obligations.CopiesRunIndependently := by
  intro schedule
  induction schedule with
  | nil => exact fun blocks => ⟨blocks, rfl, rfl, fun n s hs => ⟨s, run_zero s, hs⟩⟩
  | cons n rest ih =>
    intro blocks
    obtain ⟨stepped, hcopy, hlength, hothers, hnamed⟩ := stepCopy_spec n blocks
    obtain ⟨final, hrun, hfinal, hcopies⟩ := ih stepped
    refine ⟨final, (runSchedule_cons hcopy).trans hrun, hfinal.trans hlength, fun k s hs => ?_⟩
    by_cases hk : k = n
    · subst hk
      obtain ⟨t, hstep, ht⟩ := hnamed s hs
      rw [List.count_cons_self, run_succ_of_step hstep]
      exact hcopies k t ht
    · rw [List.count_cons_of_ne (Ne.symm hk)]
      exact hcopies k s ((hothers k hk).trans hs)

/-- Settles O17: permuted schedules have as many steps for each copy, and that number says where the copy is. -/
theorem scheduleOrderDoesNotMatter : Obligations.ScheduleOrderDoesNotMatter := by
  intro l₁ l₂ blocks hperm
  obtain ⟨final₁, hrun₁, hlength₁, hcopies₁⟩ := copiesRunIndependently l₁ blocks
  obtain ⟨final₂, hrun₂, hlength₂, hcopies₂⟩ := copiesRunIndependently l₂ blocks
  have heq : final₁ = final₂ := by
    refine List.ext_getElem? fun n => ?_
    cases hn : blocks[n]? with
    | none =>
      have hge := List.getElem?_eq_none_iff.1 hn
      rw [List.getElem?_eq_none (hlength₁.le.trans hge), List.getElem?_eq_none (hlength₂.le.trans hge)]
    | some s =>
      obtain ⟨t₁, ht₁, h₁⟩ := hcopies₁ n s hn
      obtain ⟨t₂, ht₂, h₂⟩ := hcopies₂ n s hn
      rw [hperm.count_eq n, ht₂] at ht₁
      cases ht₁
      rw [h₁, h₂]
  rw [hrun₁, hrun₂, heq]

end Sys2Proof.Machine
end

section
/-! SUPPORT. The statements on the dropped bits (42_normalizer_packer.md R70) and on the extreme operands
(43_numeric_laws.md section 3). -/

namespace Sys2Proof.Machine

/-- Settles O32: the result is made of zero detect, sign, shift count and aligned significand, and the last is
`norm[31:8]` below eight zeros. -/
theorem droppedBitsNeverMatter : Obligations.DroppedBitsNeverMatter := by
  intro a b ha hb hsign hshift hnorm
  have hzero : isZero a = isZero b := by
    rw [Bool.eq_iff_iff, isZero_iff, isZero_iff]
    exact iff_of_false ha hb
  have hmant : mantWord (normWord (magnitude a)) = mantWord (normWord (magnitude b)) := by
    rw [mantWord_eq_append, mantWord_eq_append, hnorm]
  rw [i2fRtz_eq, i2fRtz_eq, hzero, hsign, hshift, hmant]

/-- The pattern of `I32_MAX`, with either sign, stands for its top 24 bits. -/
theorem fp32Value_of_expField_157 (z : Word) (sign : Bool) (hs : signField z = sign)
    (he : (expField z).toNat = 157) (hf : (fracField z).toNat = 0x7FFFFF) :
    fp32Value z = some ((-1 : ℚ) ^ sign.toNat * 2147483520) := by
  rw [fp32Value_of_fields z sign 157 0x7FFFFF hs he hf (by decide) (by decide), mul_assoc]
  norm_num

/-- The patterns with exponent field 158 and no mantissa bit stand for `2^31` with their sign. -/
theorem fp32Value_of_expField_158 (z : Word) (sign : Bool) (hs : signField z = sign)
    (he : (expField z).toNat = 158) (hf : (fracField z).toNat = 0) :
    fp32Value z = some ((-1 : ℚ) ^ sign.toNat * 2147483648) := by
  rw [fp32Value_of_fields z sign 158 0 hs he hf (by decide) (by decide)]
  norm_num

/-- Settles O48: the wires and the native value by evaluation, the values by fields. -/
theorem extremeOperands : Obligations.ExtremeOperands := by
  refine ⟨by decide, ?_, by decide, ?_, by decide, ?_, by decide, ?_, by decide, by decide⟩
  · rw [fp32Value_of_expField_158 _ true (by decide) (by decide) (by decide)]
    norm_num
  · rw [fp32Value_of_expField_157 _ false (by decide) (by decide) (by decide)]
    norm_num
  · rw [fp32Value_of_expField_158 _ false (by decide) (by decide) (by decide)]
    norm_num
  · rw [fp32Value_of_expField_157 _ true (by decide) (by decide) (by decide)]
    norm_num

end Sys2Proof.Machine
end

section
/-! SUPPORT. A host's bytes, and the statements on them and on words written out (20_memory.md R29 and R31,
30_encoding.md R38). -/

namespace Sys2Proof.Machine

/-- Settles O5: the decoder keeps the word, and a table number of 33 bits has no word. -/
theorem wordsDecodeToTheirOperands : Obligations.WordsDecodeToTheirOperands := by
  unfold Obligations.WordsDecodeToTheirOperands
  decide

/-- A word is its four bytes, the highest first. -/
theorem append_bytes (w : Word) :
    w.extractLsb' 24 8 ++ w.extractLsb' 16 8 ++ w.extractLsb' 8 8 ++ w.extractLsb' 0 8 = w := by
  have hupper : w.extractLsb' 24 8 ++ w.extractLsb' 16 8 = w.extractLsb' 16 16 :=
    BitVec.extractLsb'_append_extractLsb'_eq_extractLsb' rfl
  have hthree : w.extractLsb' 16 16 ++ w.extractLsb' 8 8 = w.extractLsb' 8 24 :=
    BitVec.extractLsb'_append_extractLsb'_eq_extractLsb' rfl
  have hword : w.extractLsb' 8 24 ++ w.extractLsb' 0 8 = w.extractLsb' 0 32 :=
    BitVec.extractLsb'_append_extractLsb'_eq_extractLsb' rfl
  rw [hupper, hthree, hword, BitVec.extractLsb'_eq_self]

/-- The four bytes of a word that is made of bytes are these. -/
theorem extractLsb'_bytes (b3 b2 b1 b0 : Byte) :
    (b3 ++ b2 ++ b1 ++ b0).extractLsb' 24 8 = b3 ∧ (b3 ++ b2 ++ b1 ++ b0).extractLsb' 16 8 = b2 ∧
      (b3 ++ b2 ++ b1 ++ b0).extractLsb' 8 8 = b1 ∧ (b3 ++ b2 ++ b1 ++ b0).extractLsb' 0 8 = b0 := by
  refine ⟨?_, ?_, ?_, BitVec.extractLsb'_append_eq_right⟩
  · rw [BitVec.extractLsb'_append_eq_of_le (by decide), BitVec.extractLsb'_append_eq_of_le (by decide),
      BitVec.extractLsb'_append_eq_left]
  · rw [BitVec.extractLsb'_append_eq_of_le (by decide), BitVec.extractLsb'_append_eq_of_le (by decide),
      BitVec.extractLsb'_append_eq_right]
  · rw [BitVec.extractLsb'_append_eq_of_le (by decide), BitVec.extractLsb'_append_eq_right]

/-- In either order the word of a word's bytes is that word. -/
theorem decodeBytes_encodeBytes (o : ByteOrder) (i : Instr) (rest : List Byte) :
    decodeBytes o (encodeBytes o i ++ rest) = .ok (i, rest) := by
  obtain ⟨a⟩ := i
  cases o <;> exact congrArg (fun w => Except.ok (decode w, rest)) (append_bytes a)

/-- In either order the bytes of the word of four bytes are these four. -/
theorem bytesOfWord_wordOfBytes (o : ByteOrder) (b0 b1 b2 b3 : Byte) :
    bytesOfWord o (wordOfBytes o b0 b1 b2 b3) = [b0, b1, b2, b3] := by
  cases o
  · obtain ⟨h3, h2, h1, h0⟩ := extractLsb'_bytes b3 b2 b1 b0
    rw [bytesOfWord, wordOfBytes, h0, h1, h2, h3]
  · obtain ⟨h0, h1, h2, h3⟩ := extractLsb'_bytes b0 b1 b2 b3
    rw [bytesOfWord, wordOfBytes, h0, h1, h2, h3]

/-- Fewer than four bytes are rejected by name (20_memory.md R31). -/
theorem decodeBytes_short (o : ByteOrder) (bs : List Byte) (h : bs.length < 4) :
    decodeBytes o bs = .error (.shortWord bs.length) := by
  match bs, h with
  | [], _ | [_], _ | [_, _], _ | [_, _, _], _ => rfl
  | _ :: _ :: _ :: _ :: rest, h => exact absurd h (by simp)

/-- Settles O6: cutting a word into four bytes and putting four bytes together undo each other, in either order. -/
theorem eitherByteOrderKeepsEveryBit : Obligations.EitherByteOrderKeepsEveryBit :=
  ⟨decodeBytes_encodeBytes, fun o b0 b1 b2 b3 _ => ⟨_, rfl, bytesOfWord_wordOfBytes o b0 b1 b2 b3⟩, decodeBytes_short⟩

end Sys2Proof.Machine
end

section
/-! SUPPORT. The lines of the assembly (30_encoding.md R46), and the statements on decimal operands and on written lines. -/

namespace Sys2Proof.Machine

/-- A decimal in range assembles to the word of its integer (R46). -/
theorem assemble_dec_of_range {n : ℤ} (hlow : -2147483648 ≤ n) (hhigh : n ≤ 2147483647) :
    assemble (.dec n) = some (.i2fRtz (BitVec.ofInt 32 n)) := by
  simp [assemble, AsmOperand.wellFormed, hlow, hhigh]

/-- A decimal outside the range assembles to nothing (R46). -/
theorem assemble_dec_of_out_of_range {n : ℤ} (h : n < -2147483648 ∨ 2147483647 < n) : assemble (.dec n) = none := by
  have hwf : AsmOperand.wellFormed (.dec n) = false := by
    rw [AsmOperand.wellFormed, Bool.and_eq_false_iff, decide_eq_false_iff_not, decide_eq_false_iff_not]
    omega
  rw [assemble, hwf, if_neg Bool.false_ne_true]

/-- The value of a word lies in the range of a decimal (R38). -/
theorem toInt_range (a : Word) : -2147483648 ≤ a.toInt ∧ a.toInt ≤ 2147483647 := by
  have hlow := a.le_toInt
  have hhigh := a.toInt_lt
  omega

/-- A word is written by the decimal of its value (R46). -/
theorem assemble_dec_toInt (a : Word) : assemble (.dec a.toInt) = some (.i2fRtz a) := by
  obtain ⟨hlow, hhigh⟩ := toInt_range a
  rw [assemble_dec_of_range hlow hhigh, BitVec.ofInt_toInt]

/-- Settles O8: in range the word of an integer has that value, and a word has one value. -/
theorem decimalOperandsEncodeExactlyInRange : Obligations.DecimalOperandsEncodeExactlyInRange := by
  refine fun n => ⟨fun a => ⟨fun h => ?_, ?_⟩, assemble_dec_of_out_of_range⟩
  · have hrange : -2147483648 ≤ n ∧ n ≤ 2147483647 := by
      by_contra hout
      rw [assemble_dec_of_out_of_range (by omega)] at h
      exact nomatch h
    obtain ⟨hlow, hhigh⟩ := hrange
    rw [assemble_dec_of_range hlow hhigh] at h
    cases h
    exact ⟨hlow, hhigh, BitVec.toInt_ofInt_eq_self (by decide) (by omega) (by omega)⟩
  · rintro ⟨-, -, rfl⟩
    exact assemble_dec_toInt a

section
variable {b : Nat} {digit : Char → Option Nat}

theorem readDigits_cons {c : Char} {d : Nat} (h : digit c = some d) (acc : Nat) (cs : List Char) :
    readDigits b digit acc (c :: cs) = readDigits b digit (acc * b + d) cs := by
  simp only [readDigits, h]

/-- Digits are read from the front: the number that the first ones write is what the others are read after. -/
theorem readDigits_append {acc n : Nat} {cs : List Char} (h : readDigits b digit acc cs = some n) (ds : List Char) :
    readDigits b digit acc (cs ++ ds) = readDigits b digit n ds := by
  induction cs generalizing acc with
  | nil => rw [List.nil_append, Option.some.inj h]
  | cons c cs ih =>
    cases hc : digit c with
    | none => simp [readDigits, hc] at h
    | some d =>
      rw [readDigits_cons hc] at h
      rw [List.cons_append, readDigits_cons hc, ih h]

/-- One more digit multiplies what was read by the base and is added. -/
theorem readDigits_concat {acc n d : Nat} {cs : List Char} {c : Char} (h : readDigits b digit acc cs = some n)
    (hc : digit c = some d) : readDigits b digit acc (cs ++ [c]) = some (n * b + d) := by
  rw [readDigits_append h, readDigits_cons hc, readDigits]

end

/-- The digit written for a number below 10 is read as that number. -/
theorem decDigit_digitOf {d : Nat} (h : d < 10) : decDigit (digitOf d) = some d := by
  revert d
  decide

/-- The digit written for a number below 16 is read as that number. -/
theorem hexDigit_digitOf {d : Nat} (h : d < 16) : hexDigit (digitOf d) = some d := by
  revert d
  decide

/-- The decimal digits of a number, if they may be as many as it takes, are read as that number. -/
theorem readDigits_decDigits {fuel n : Nat} (h : n < 10 ^ fuel) :
    readDigits 10 decDigit 0 (decDigits fuel n) = some n := by
  induction fuel generalizing n with
  | zero =>
    obtain rfl : n = 0 := Nat.lt_one_iff.1 h
    rfl
  | succ fuel ih =>
    rw [decDigits]
    split_ifs with hdigit
    · rw [readDigits_cons (decDigit_digitOf hdigit), readDigits, Nat.zero_mul, Nat.zero_add]
    · have hdiv : n / 10 < 10 ^ fuel := Nat.div_lt_of_lt_mul (by rwa [← pow_succ'])
      rw [readDigits_concat (ih hdiv) (decDigit_digitOf (Nat.mod_lt n (by decide))), Nat.div_add_mod']

/-- The lowest `k` hex digits of a number are read as its remainder by `16^k`. -/
theorem readDigits_hexDigits (k n : Nat) : readDigits 16 hexDigit 0 (hexDigits k n) = some (n % 16 ^ k) := by
  induction k generalizing n with
  | zero => rw [pow_zero, Nat.mod_one]; rfl
  | succ k ih =>
    rw [hexDigits, readDigits_concat (ih (n / 16)) (hexDigit_digitOf (Nat.mod_lt n (by decide))), pow_succ',
      Nat.mod_mul, Nat.mul_comm, Nat.add_comm]

/-- As many hex digits are written as are asked for. -/
theorem length_hexDigits (k n : Nat) : (hexDigits k n).length = k := by
  induction k generalizing n with
  | zero => rfl
  | succ k ih => rw [hexDigits, List.length_append, ih, List.length_singleton]

/-- Characters that write an unsigned decimal are read as that operand: neither `0x` nor a minus sign is a digit. -/
theorem readOperand_of_readDecimal {ds : List Char} {n : Nat} (h : readDecimal ds = some n) :
    readOperand ds = some (.dec n) := by
  unfold readOperand
  split
  · simp [readDecimal, readDigits, decDigit] at h
  · simp [readDecimal, readDigits, decDigit] at h
  · rw [h]
    rfl

/-- Some digit is always written. -/
theorem decDigits_ne_nil (fuel n : Nat) : decDigits (fuel + 1) n ≠ [] := by
  rw [decDigits]
  split_ifs <;> simp

/-- One or more digits are read as an unsigned decimal. -/
theorem readDecimal_of_ne_nil {ds : List Char} (h : ds ≠ []) : readDecimal ds = readDigits 10 decDigit 0 ds := by
  cases ds with
  | nil => exact absurd rfl h
  | cons d ds => rfl

/-- Up to ten digits are written so that they read back. -/
theorem readDecimal_decDigits {n : Nat} (h : n < 10 ^ 10) : readDecimal (decDigits 10 n) = some n := by
  rw [readDecimal_of_ne_nil (decDigits_ne_nil 9 n), readDigits_decDigits h]

/-- A signed decimal of up to ten digits reads back. -/
theorem readOperand_writeDecimal {n : ℤ} (h : n.natAbs < 10 ^ 10) : readOperand (writeDecimal n) = some (.dec n) := by
  have hdigits := readDecimal_decDigits h
  rw [writeDecimal]
  split_ifs with hneg
  · rw [readOperand, hdigits]
    exact congrArg (some <| AsmOperand.dec ·) (show -(n.natAbs : ℤ) = n by omega)
  · rw [readOperand_of_readDecimal hdigits, Int.natAbs_of_nonneg (not_lt.1 hneg)]

/-- A word written as `0x` and 8 hex digits reads back. -/
theorem readOperand_writeHex (a : Word) : readOperand ('0' :: 'x' :: hexDigits 8 a.toNat) = some (.hex a) := by
  have hlt : a.toNat < 16 ^ 8 := a.isLt
  rw [readOperand, if_pos (length_hexDigits 8 _), readDigits_hexDigits, Option.map_some, Nat.mod_eq_of_lt hlt,
    BitVec.ofNat_toNat, BitVec.setWidth_eq]

/-- What stands after the expected characters is found. -/
theorem afterPrefix_append (ps cs : List Char) : afterPrefix ps (ps ++ cs) = some cs := by
  induction ps with
  | nil => rfl
  | cons p ps ih => rw [List.cons_append, afterPrefix, if_pos rfl, ih]

/-- A line with the mnemonic is the instruction of its operand (R46). -/
theorem assembleLine_mnemonic (cs : List Char) :
    assembleLine (mnemonicChars ++ cs) = (readOperand cs).bind assemble := by
  simp only [assembleLine, afterPrefix_append]

/-- Settles O7: digits are read back by induction over them, and what they write is the value of the word, in range, or
the word. -/
theorem writtenLinesReadBack : Obligations.WrittenLinesReadBack := by
  rintro ⟨a⟩
  obtain ⟨hlow, hhigh⟩ := toInt_range a
  constructor
  · rw [writeLineDec, assembleLine_mnemonic, readOperand_writeDecimal (by omega), Option.bind_some, assemble_dec_toInt]
  · rw [writeLineHex, assembleLine_mnemonic, readOperand_writeHex]
    rfl

end Sys2Proof.Machine
end
